-- ==== Sys2Proof/Word.lean ====
section
/-! DEFINITION. The word type, the names and element widths of the thirteen data spaces, and the type that
holds one space's elements (10_state.md R21, R40). -/

namespace Sys2Proof

/-- A control register as the host reads it, and a command word: 32 bits (R21, R81). -/
abbrev Word := BitVec 32

/-- The thirteen data spaces, in the order of their VALID bits (R33, R40). -/
inductive Space
  | pix | py | pcb | pcr | scb | scr | blk | coef | qt | qc | zz | tok | out
deriving DecidableEq, Repr

/-- The width in bits of one element of a space (R40 to R49). -/
abbrev Space.width : Space → Nat
  | .pix => 24
  | .py => 29
  | .pcb => 29
  | .pcr => 29
  | .scb => 31
  | .scr => 31
  | .blk => 32
  | .coef => 128
  | .qt => 16
  | .qc => 16
  | .zz => 16
  | .tok => 32
  | .out => 32

/-- The elements of one space that something has written since reset: (index, element), indices strictly
rising. An element that is not listed holds an unspecified value (93_implementation_defined.md U1). -/
abbrev Cells (w : Nat) := List (Nat × BitVec w)

end Sys2Proof
end

