-- ==== Sys2Proof/Config.lean ====
section
/-! DEFINITION. What an implementation fixes (the parameters of 00_scope.md R8) and the values the spec leaves
free (93_implementation_defined.md U1, U2). -/

namespace Sys2Proof

/-- The parameters of the hardware that R8 gives as model arguments. A parameter outside its legal range cannot
be written down: "entries must lie in 1..255, a model refuses to be instantiated with others"
(93_implementation_defined.md I9). -/
structure Config where
  /-- `MAXW`, the largest legal WIDTH. -/
  maxW : Nat
  /-- `MAXH`, the largest legal HEIGHT. -/
  maxH : Nat
  /-- `BASE_LUM`, row-major (42_quantizer.md R141). -/
  baseLum : List Nat
  /-- `BASE_CHR`, row-major (42_quantizer.md R142). -/
  baseChr : List Nat
  maxW_legal : 1 ≤ maxW ∧ maxW ≤ 32768
  maxH_legal : 1 ≤ maxH ∧ maxH ≤ 32768
  baseLum_legal : baseLum.length = 64 ∧ ∀ b ∈ baseLum, 1 ≤ b ∧ b ≤ 255
  baseChr_legal : baseChr.length = 64 ∧ ∀ b ∈ baseChr, 1 ≤ b ∧ b ≤ 255
deriving DecidableEq, Repr

/-- FREE VALUE (log entry 1). What element `i` of a space reads as while nothing has written it since reset:
any value of the element's type, and, since `draw` is a counter that every host action advances, not
necessarily the same value at the next action ("two reads need not agree", 93_implementation_defined.md U1). -/
opaque Config.unwritten : (sp : Space) → (draw i : Nat) → BitVec sp.width

end Sys2Proof
end

