-- ==== Sys2Proof/Machine/Tables.lean ====
section
/-! DEFINITION. The read-only tables: COSROM and NORMROM (10_state.md R52, R53), ZZROM (43_zigzag_rle.md R160) and
the default base quantization tables (42_quantizer.md R141, R142). Configuration, not state. -/

namespace Sys2Proof.Machine

/-- COSROM rows `m = 0..3` (R52). -/
def cosRomTop : List (List Int) := [
  [1073741824, 1053110176, 992008094, 892783698, 759250125, 596538995, 410903207, 209476638],
  [1073741824, 892783698, 410903207, -209476638, -759250125, -1053110176, -992008094, -596538995],
  [1073741824, 596538995, -410903207, -1053110176, -759250125, 209476638, 992008094, 892783698],
  [1073741824, 209476638, -992008094, -596538995, 759250125, 892783698, -410903207, -1053110176]]

/-- COSROM rows `m = 4..7` (R52). -/
def cosRomBottom : List (List Int) := [
  [1073741824, -209476638, -992008094, 596538995, 759250125, -892783698, -410903207, 1053110176],
  [1073741824, -596538995, -410903207, 1053110176, -759250125, -209476638, 992008094, -892783698],
  [1073741824, -892783698, 410903207, 209476638, -759250125, 1053110176, -992008094, 596538995],
  [1073741824, -1053110176, 992008094, -892783698, 759250125, -596538995, 410903207, -209476638]]

/-- `COSROM[m][p]`, `m` the spatial index, `p` the frequency index, both 0..7 (R52). -/
def cosRom (m p : Nat) : Int := (((cosRomTop ++ cosRomBottom).getD m []).getD p 0)

/-- `NORM(p, q)`, selected by how many of `p`, `q` are zero (R53). -/
def normRom (p q : Nat) : Int :=
  if p = 0 ∧ q = 0 then 134217728
  else if p = 0 ∨ q = 0 then 189812531
  else 268435456

/-- ZZROM, entries 0..31 (R160). -/
def zzRomLow : List Nat := [
  0, 1, 5, 6, 14, 15, 27, 28,
  2, 4, 7, 13, 16, 26, 29, 42,
  3, 8, 12, 17, 25, 30, 41, 43,
  9, 11, 18, 24, 31, 40, 44, 53]

/-- ZZROM, entries 32..63 (R160). -/
def zzRomHigh : List Nat := [
  10, 19, 23, 32, 39, 45, 52, 54,
  20, 22, 33, 38, 46, 51, 55, 60,
  21, 34, 37, 47, 50, 56, 59, 61,
  35, 36, 48, 49, 57, 58, 62, 63]

/-- `ZZROM[i]`, the row-major source index of sequence position `i` (R160, R161). -/
def zzRom (i : Nat) : Nat := (zzRomLow ++ zzRomHigh).getD i 0

/-- The default of BASE_LUM, PRESUMED (log entry 3): the numbers R141 prints. -/
def baseLumDefault : List Nat := [
  16, 11, 10, 16, 24, 40, 51, 61,
  12, 12, 14, 19, 26, 58, 60, 55,
  14, 13, 16, 24, 40, 57, 69, 56,
  14, 17, 22, 29, 51, 87, 80, 62] ++ [
  18, 22, 37, 56, 68, 109, 103, 77,
  24, 35, 55, 64, 81, 104, 113, 92,
  49, 64, 78, 87, 103, 121, 120, 101,
  72, 92, 95, 98, 112, 100, 103, 99]

/-- The default of BASE_CHR, PRESUMED (log entry 3): the numbers R142 prints. -/
def baseChrDefault : List Nat := [
  17, 18, 24, 47, 99, 99, 99, 99,
  18, 21, 26, 66, 99, 99, 99, 99,
  24, 26, 56, 99, 99, 99, 99, 99,
  47, 66, 99, 99, 99, 99, 99, 99] ++ [
  99, 99, 99, 99, 99, 99, 99, 99,
  99, 99, 99, 99, 99, 99, 99, 99,
  99, 99, 99, 99, 99, 99, 99, 99,
  99, 99, 99, 99, 99, 99, 99, 99]

/-- The parameters `State.reset` carries: MAXW = MAXH = 4096, the suggested values of R8 (DESIGN CHOICE, log
entry 2), and the default base tables (log entry 3). Every statement about an arbitrary state holds for every
legal parameter. -/
def suggestedConfig : Config where
  maxW := 4096
  maxH := 4096
  baseLum := baseLumDefault
  baseChr := baseChrDefault
  maxW_legal := by decide
  maxH_legal := by decide
  baseLum_legal := by decide
  baseChr_legal := by decide

end Sys2Proof.Machine
end

