-- ==== Sys2Proof/Machine/State.lean ====
section
/-! DEFINITION. The state of the machine as plain data (10_state.md), the reasons a step can stop, and the state
right after reset (10_state.md R59, 70_reset_and_hazards.md R230). -/

namespace Sys2Proof.Machine

/-- The control registers (R21). A register with reserved bits holds its defined bits only; the others read 0
(R22, R23, R33, R38). -/
structure Csrs where
  /-- Bit 0 RND, bit 1 C255 (R22). -/
  ctrl : BitVec 2
  /-- Bit 0 FAULT (R23). -/
  status : BitVec 1
  /-- The code of the recorded fault (R24). -/
  fcode : Word
  /-- The detail of the recorded fault (R25). -/
  finfo : Word
  /-- Image width, signed (R26). -/
  width : Word
  /-- Image height, signed (R27). -/
  height : Word
  /-- Quality level, signed, unclamped (R28). -/
  quality : Word
  /-- Block row offset, unsigned (R29). -/
  offi : Word
  /-- Block column offset, unsigned (R30). -/
  offj : Word
  /-- One bit per data space (R33). -/
  valid : BitVec 13
  /-- Number of tokens in TOK (R34). -/
  tokn : Word
  /-- Number of tokens in OUT (R35). -/
  outn : Word
  /-- OUT index of the first token of plane Y (R36). -/
  pstart0 : Word
  /-- OUT index of the first token of subsampled Cb (R36). -/
  pstart1 : Word
  /-- OUT index of the first token of subsampled Cr (R36). -/
  pstart2 : Word
deriving DecidableEq, Repr

/-- The thirteen data spaces (R40 to R49). -/
structure Memory where
  pix : Cells 24
  py : Cells 29
  pcb : Cells 29
  pcr : Cells 29
  scb : Cells 31
  scr : Cells 31
  blk : Cells 32
  coef : Cells 128
  qt : Cells 16
  qc : Cells 16
  zz : Cells 16
  tok : Cells 32
  out : Cells 32
deriving DecidableEq, Repr

/-- The six host actions: "nothing else changes the state" (00_scope.md R10). -/
inductive HostAction
  /-- `HostReset`. -/
  | reset
  /-- `HostWriteCsr(n, v)`. -/
  | writeCsr (n : Nat) (v : Word)
  /-- `HostReadCsr(n)`. -/
  | readCsr (n : Nat)
  /-- `HostWriteMem(SPACE, i, v)`. -/
  | writeMem (sp : Space) (i : Nat) (v : Int)
  /-- `HostReadMem(SPACE, i)`. -/
  | readMem (sp : Space) (i : Nat)
  /-- `HostCmd(cw)`. -/
  | command (cw : Word)
deriving DecidableEq, Repr

/-- What a read action returns to the host: a register's 32 bits (R21) or an element read as its type gives
(20_memory.md R63). -/
inductive Reply
  | csr (v : Word)
  | elem (v : Int)
deriving DecidableEq, Repr

/-- The machine. `csr` and `mem` are the spec's state ("the complete state of the machine", 10_state.md); the
other four fields are the model's own. -/
structure State where
  /-- The control registers. -/
  csr : Csrs
  /-- The data spaces. -/
  mem : Memory
  /-- The parameters of R8; no action writes them (log entry 2). -/
  cfg : Config
  /-- The host actions still to be performed, oldest first (log entry 4). -/
  pending : List HostAction
  /-- What the last performed action returned to the host (log entry 5). -/
  reply : Option Reply
  /-- The counter the free values of unwritten elements are drawn with (log entry 6). -/
  draws : Nat
deriving DecidableEq, Repr

/-- The reasons the machine stops: there are none. "A command either completes or faults; it cannot stall, hang
or be interrupted" (30_encoding.md R80), and a fault of the spec is a NEXT state in which STATUS, FCODE and FINFO
are written (60_exceptions.md R206). So nothing raises a `Fault` (log entry 7). -/
inductive Fault : Type
deriving DecidableEq, Repr

/-- The reasons the model gives an instruction no meaning. -/
inductive Refusal
  /-- Raised by an arm of `exec` whose instruction has no meaning yet; safe. No arm of this model raises it. -/
  | notModelled (mnemonic : String)
deriving DecidableEq, Repr

/-- The control registers after HostReset (R59): all 0 but QUALITY = 50. -/
def Csrs.reset : Csrs where
  ctrl := 0
  status := 0
  fcode := 0
  finfo := 0
  width := 0
  height := 0
  quality := 50
  offi := 0
  offj := 0
  valid := 0
  tokn := 0
  outn := 0
  pstart0 := 0
  pstart1 := 0
  pstart2 := 0

/-- No element of any space is written: the contents of all thirteen are unspecified (R59, U1). -/
def Memory.unspecified : Memory where
  pix := []
  py := []
  pcb := []
  pcr := []
  scb := []
  scr := []
  blk := []
  coef := []
  qt := []
  qc := []
  zz := []
  tok := []
  out := []

/-- The state right after reset, which is the power-on state as well (70_reset_and_hazards.md R230). -/
def State.reset : State where
  csr := Csrs.reset
  mem := Memory.unspecified
  cfg := suggestedConfig
  pending := []
  reply := none
  draws := 0

end Sys2Proof.Machine
end

