-- ==== Sys2Proof/Machine/Flags.lean ====
section
/-! DEFINITION. The status bits: STATUS.FAULT, the two mode bits of CTRL and the thirteen VALID bits. The block has
no condition codes and no arithmetic flags (10_state.md R22, R23, R33, R37). -/

namespace Sys2Proof.Machine

/-- `csr[STATUS].FAULT` (R23). -/
def State.faulted (s : State) : Bool := s.csr.status == 1#1

/-- `csr[CTRL].RND`: `false` truncate toward zero, `true` round to nearest (R22). -/
def State.rnd (s : State) : Bool := s.csr.ctrl.getLsbD 0

/-- `csr[CTRL].C255`: `true` clamps every scaled table entry to at most 255 (R22). -/
def State.c255 (s : State) : Bool := s.csr.ctrl.getLsbD 1

/-- The bit number of a space in VALID (R33); for a plane this is `vbit(pl)` (30_encoding.md R82). -/
def vbit : Space → Nat
  | .pix => 0
  | .py => 1
  | .pcb => 2
  | .pcr => 3
  | .scb => 4
  | .scr => 5
  | .blk => 6
  | .coef => 7
  | .qt => 8
  | .qc => 9
  | .zz => 10
  | .tok => 11
  | .out => 12

/-- The VALID bits of some spaces, as a mask. -/
def validBits : List Space → BitVec 13
  | [] => 0
  | sp :: rest => (1#13 <<< vbit sp) ||| validBits rest

/-- `VALID.X` (00_scope.md R14). -/
def State.isValid (s : State) (sp : Space) : Bool := s.csr.valid.getLsbD (vbit sp)

/-- `VALID.X <- 1` for each of the spaces. -/
def State.setValid (s : State) (sps : List Space) : State :=
  { s with csr := { s.csr with valid := s.csr.valid ||| validBits sps } }

/-- `VALID.X <- 0` for each of the spaces. -/
def State.clearValid (s : State) (sps : List Space) : State :=
  { s with csr := { s.csr with valid := s.csr.valid &&& ~~~ validBits sps } }

/-- The VALID bits a command needs and finds 0 (60_exceptions.md R203). -/
def State.missing (s : State) (need : List Space) : BitVec 13 :=
  validBits need &&& ~~~ s.csr.valid

/-- The spaces a write to WIDTH or HEIGHT invalidates: bits 0 to 5 and 12 (R31). -/
def geometrySpaces : List Space := [.pix, .py, .pcb, .pcr, .scb, .scr, .out]

/-- The six per-block spaces: bits 6 to 11, the ones FRAME invalidates (R33). -/
def blockSpaces : List Space := [.blk, .coef, .qt, .qc, .zz, .tok]

end Sys2Proof.Machine
end

