-- ==== Sys2Proof/Syntax.lean ====
section
/-! DEFINITION. The ten commands as syntax: one constructor per row of spec/opcode_table.json
(30_encoding.md R84). -/

namespace Sys2Proof

/-- The plane selector `pl` (R82). -/
inductive Plane
  | y | cb | cr | scb | scr
deriving DecidableEq, Repr

/-- The plane kind of a quantization table (R83). -/
inductive Kind
  | lum | chr
deriving DecidableEq, Repr

/-- The command set (R84). `res` of QNT is the table source: `false` fresh, `true` resident (R83). -/
inductive Instr
  | csc
  | sub (pl : Plane)
  | blkx (pl : Plane)
  | dct
  | qtbl (kind : Kind)
  | qnt (kind : Kind) (res : Bool)
  | zz
  | rle
  | block (pl : Plane)
  | frame
deriving DecidableEq, Repr

end Sys2Proof
end

