-- ==== Sys2Proof/WellFormed.lean ====
section
/-! DEFINITION. Which terms of `Instr` are commands of the hardware (30_encoding.md R84, R85). Every other
limit of an encoding is in the types of the operands. -/

namespace Sys2Proof

/-- The planes SUB takes: "only full-resolution chroma planes are subsampled" (R85, R86). -/
def Plane.subsampled : Plane → Bool
  | .cb => true
  | .cr => true
  | .y => false
  | .scb => false
  | .scr => false

/-- A term is well formed when some legal word of R85 stands for it. -/
def Instr.wf : Instr → Bool
  | .csc => true
  | .sub pl => pl.subsampled
  | .blkx _ => true
  | .dct => true
  | .qtbl _ => true
  | .qnt _ _ => true
  | .zz => true
  | .rle => true
  | .block _ => true
  | .frame => true

end Sys2Proof
end

