-- ==== Sys2Proof/Machine/Operands.lean ====
section
/-! DEFINITION. The operands of the commands: the plane selector, the image geometry, the quality and the offsets
(30_encoding.md R82, R83; 10_state.md R26 to R30, R39, R40). The block has no immediates and no register
operands. -/

namespace Sys2Proof.Machine

/-- `ceil_div(n, d)` on natural numbers, `d > 0` (00_scope.md R16). -/
def ceilDiv (n d : Nat) : Nat := (n + d - 1) / d

/-! ### Sizes of the spaces -/

/-- `OUTCAP` (00_scope.md R8): 65 tokens for every block of the largest image. -/
def outCap (c : Config) : Nat :=
  65 * (ceilDiv c.maxH 8 * ceilDiv c.maxW 8
    + 2 * (ceilDiv (ceilDiv c.maxH 2) 8 * ceilDiv (ceilDiv c.maxW 2) 8))

/-- The number of elements of a space (R40). -/
def spaceSize (c : Config) : Space → Nat
  | .pix => c.maxH * c.maxW
  | .py => c.maxH * c.maxW
  | .pcb => c.maxH * c.maxW
  | .pcr => c.maxH * c.maxW
  | .scb => ceilDiv c.maxH 2 * ceilDiv c.maxW 2
  | .scr => ceilDiv c.maxH 2 * ceilDiv c.maxW 2
  | .blk => 64
  | .coef => 64
  | .qt => 64
  | .qc => 64
  | .zz => 64
  | .tok => 65
  | .out => outCap c

/-! ### The plane selector -/

/-- `space(pl)` (R82). -/
def planeSpace : Plane → Space
  | .y => .py
  | .cb => .pcb
  | .cr => .pcr
  | .scb => .scb
  | .scr => .scr

/-- The factor that converts a sample of the plane to format S: 4 for format P, 1 for format S
(`fmt(pl)` of R82; 41_block_dct.md R121). -/
def planeScale : Plane → Int
  | .y => 4
  | .cb => 4
  | .cr => 4
  | .scb => 1
  | .scr => 1

/-- `kindof(pl)` (R82): "luma plane uses Luminance, both chroma planes use Chrominance". -/
def planeKind : Plane → Kind
  | .y => .lum
  | .cb => .chr
  | .cr => .chr
  | .scb => .chr
  | .scr => .chr

/-- The destination of SUB: SCB for `cb`, SCR for `cr` (40_color_subsample.md R107). The other selectors are illegal
words (R86) and never reach it. -/
def subDest : Plane → Space
  | .cr => .scr
  | .y => .scb
  | .cb => .scb
  | .scb => .scb
  | .scr => .scr

/-! ### The image geometry -/

/-- `csr[WIDTH]` and `csr[HEIGHT]` as signed 32-bit integers (R26, R27). -/
def State.widthReg (s : State) : Int := s.csr.width.toInt
def State.heightReg (s : State) : Int := s.csr.height.toInt

/-- `1 <= W <= MAXW` and `1 <= H <= MAXH` (60_exceptions.md R201). -/
abbrev State.widthLegal (s : State) : Prop := 1 ≤ s.widthReg ∧ s.widthReg ≤ s.cfg.maxW
abbrev State.heightLegal (s : State) : Prop := 1 ≤ s.heightReg ∧ s.heightReg ≤ s.cfg.maxH
abbrev State.geomLegal (s : State) : Prop := s.widthLegal ∧ s.heightLegal

/-- `geom_info(W, H)`: bit 0 for an illegal WIDTH, bit 1 for an illegal HEIGHT (R201). -/
def State.geomInfo (s : State) : Word :=
  (if s.widthLegal then 0#32 else 1#32) ||| (if s.heightLegal then 0#32 else 2#32)

/-- `W` and `H` of R39; used only where the geometry is legal. -/
def State.imgW (s : State) : Nat := s.widthReg.toNat
def State.imgH (s : State) : Nat := s.heightReg.toNat

/-- `rows(pl)`: H for the full-resolution planes, ceil_div(H, 2) for the subsampled ones (R39). -/
def State.rows (s : State) : Plane → Nat
  | .y => s.imgH
  | .cb => s.imgH
  | .cr => s.imgH
  | .scb => ceilDiv s.imgH 2
  | .scr => ceilDiv s.imgH 2

/-- `cols(pl)` (R39). -/
def State.cols (s : State) : Plane → Nat
  | .y => s.imgW
  | .cb => s.imgW
  | .cr => s.imgW
  | .scb => ceilDiv s.imgW 2
  | .scr => ceilDiv s.imgW 2

/-! ### Scalars read when a command executes -/

/-- `csr[QUALITY]` as a signed 32-bit integer (R28). -/
def State.qualityReg (s : State) : Int := s.csr.quality.toInt

/-- `csr[OFFI]` and `csr[OFFJ]`, unsigned (R29, R30). -/
def State.offI (s : State) : Nat := s.csr.offi.toNat
def State.offJ (s : State) : Nat := s.csr.offj.toNat

end Sys2Proof.Machine
end

