-- ==== Sys2Proof/Machine/Ops.lean ====
section
/-! DEFINITION. The operations the commands and the host actions share: the arithmetic primitives of 00_scope.md
R16, access to one element and to a whole space, raising a fault, reset, the checks every command makes, and the
host's access to registers and spaces. -/

namespace Sys2Proof.Machine

/-! ### Arithmetic (00_scope.md R16), for a positive divisor -/

/-- The largest `k` with `k * d ≤ n`. -/
def floorDiv (n d : Int) : Int := n / d

/-- Rounding toward zero. -/
def truncDiv (n d : Int) : Int := if 0 ≤ n then floorDiv n d else - floorDiv (-n) d

/-- Nearest integer, a tie toward +infinity. -/
def nearDiv (n d : Int) : Int := floorDiv (2 * n + d) (2 * d)

/-- `clamp(v, lo, hi)`. -/
def clamp (v lo hi : Int) : Int := if v < lo then lo else if hi < v then hi else v

/-- The sum of the eight values `f 0 + ... + f 7`, the loop `for m in 0..7` of the DCT. -/
def sum8 (f : Nat → Int) : Int := f 0 + f 1 + f 2 + f 3 + f 4 + f 5 + f 6 + f 7

/-! ### The elements of one space -/

/-- The element at an index, if something has written it. -/
def cellsGet {w : Nat} : Cells w → Nat → Option (BitVec w)
  | [], _ => none
  | (k, v) :: rest, i => if k = i then some v else cellsGet rest i

/-- Write one element; the indices stay strictly rising. -/
def cellsPut {w : Nat} : Cells w → Nat → BitVec w → Cells w
  | [], i, v => [(i, v)]
  | (k, u) :: rest, i, v =>
    if i < k then (i, v) :: (k, u) :: rest
    else if i = k then (i, v) :: rest
    else (k, u) :: cellsPut rest i v

/-- The cells of a list of elements standing at `k`, `k + 1`, ... -/
def cellsFrom {w : Nat} : Nat → List (BitVec w) → Cells w
  | _, [] => []
  | k, v :: rest => (k, v) :: cellsFrom (k + 1) rest

/-- `for k in 0 .. len(vs)-1: SPACE[k] <- vs[k]`; the elements beyond keep what they held. -/
def cellsFill {w : Nat} (c : Cells w) (vs : List (BitVec w)) : Cells w :=
  cellsFrom 0 vs ++ c.filter fun e => vs.length ≤ e.1

/-- The canonical form of one space of `n` elements: indices strictly rising and below `n`. -/
def cellsWf {w : Nat} (n : Nat) : Cells w → Bool
  | [] => true
  | [(i, _)] => decide (i < n)
  | (i, _) :: (j, v) :: rest => decide (i < j) && cellsWf n ((j, v) :: rest)

/-! ### The thirteen spaces -/

/-- The cells of a space. -/
def Memory.get (m : Memory) : (sp : Space) → Cells sp.width
  | .pix => m.pix
  | .py => m.py
  | .pcb => m.pcb
  | .pcr => m.pcr
  | .scb => m.scb
  | .scr => m.scr
  | .blk => m.blk
  | .coef => m.coef
  | .qt => m.qt
  | .qc => m.qc
  | .zz => m.zz
  | .tok => m.tok
  | .out => m.out

/-- Replace the cells of a space. -/
def Memory.set (m : Memory) : (sp : Space) → Cells sp.width → Memory
  | .pix, c => { m with pix := c }
  | .py, c => { m with py := c }
  | .pcb, c => { m with pcb := c }
  | .pcr, c => { m with pcr := c }
  | .scb, c => { m with scb := c }
  | .scr, c => { m with scr := c }
  | .blk, c => { m with blk := c }
  | .coef, c => { m with coef := c }
  | .qt, c => { m with qt := c }
  | .qc, c => { m with qc := c }
  | .zz, c => { m with zz := c }
  | .tok, c => { m with tok := c }
  | .out, c => { m with out := c }

/-- Every space, once. -/
def allSpaces : List Space :=
  [.pix, .py, .pcb, .pcr, .scb, .scr, .blk, .coef, .qt, .qc, .zz, .tok, .out]

/-- The memory's canonical form under a configuration: each space's listed indices strictly rising and inside
the space (R40). -/
def Memory.wf (c : Config) (m : Memory) : Bool :=
  allSpaces.all fun sp => cellsWf (spaceSize c sp) (m.get sp)

/-- Whether the elements of a space are signed (R41 to R49). -/
def spaceSigned : Space → Bool
  | .pix => false
  | .py => true
  | .pcb => true
  | .pcr => true
  | .scb => true
  | .scr => true
  | .blk => true
  | .coef => true
  | .qt => false
  | .qc => true
  | .zz => true
  | .tok => false
  | .out => false

/-- The integer an element's bits stand for (00_scope.md R13, R14). -/
def elemValue (sp : Space) (b : BitVec sp.width) : Int :=
  if spaceSigned sp then b.toInt else (b.toNat : Int)

/-- The low bits of a value that an element keeps (20_memory.md R62). -/
def elemBits (sp : Space) (v : Int) : BitVec sp.width := BitVec.ofInt sp.width v

/-- The bits of element `i`: what was last written, or, where nothing has written it since reset, a free value
(93_implementation_defined.md U1; log entry 1). -/
def State.elem (s : State) (sp : Space) (i : Nat) : BitVec sp.width :=
  match cellsGet (s.mem.get sp) i with
  | some b => b
  | none => Config.unwritten sp s.draws i

/-- `MemRead(SPACE, i)` (00_scope.md R14): the element as the integer its type gives. -/
def State.read (s : State) (sp : Space) (i : Nat) : Int := elemValue sp (s.elem sp i)

/-- `MemWrite(SPACE, i, v)` (R14). -/
def State.write (s : State) (sp : Space) (i : Nat) (v : Int) : State :=
  { s with mem := s.mem.set sp (cellsPut (s.mem.get sp) i (elemBits sp v)) }

/-- Write elements `0 .. len(vs)-1` of a space. -/
def State.fillBits (s : State) (sp : Space) (vs : List (BitVec sp.width)) : State :=
  { s with mem := s.mem.set sp (cellsFill (s.mem.get sp) vs) }

/-- `for k in 0 .. n-1: SPACE[k] <- f(k)`. -/
def State.fill (s : State) (sp : Space) (n : Nat) (f : Nat → Int) : State :=
  s.fillBits sp ((List.range n).map fun k => elemBits sp (f k))

/-- `for r in 0 .. rows-1: for c in 0 .. cols-1: SPACE[r][c] <- f(r, c)`, where `SPACE[r][c]` is element
`r * cols + c` (20_memory.md R61). The order of the loop is not observable. -/
def State.fillPlane (s : State) (sp : Space) (rows cols : Nat) (f : Nat → Nat → Int) : State :=
  s.fill sp (rows * cols) fun k => f (k / cols) (k % cols)

/-- The contents of some spaces become unspecified (93_implementation_defined.md U1, U2). -/
def State.forget (s : State) : List Space → State
  | [] => s
  | sp :: rest => State.forget { s with mem := s.mem.set sp [] } rest

/-! ### Faults (60_exceptions.md) -/

/-- The four faults (R200). -/
inductive Cause
  | invalidInput | arithmeticFault | illegalCommand | notReady
deriving DecidableEq, Repr

/-- `code(F)` (R200). -/
def causeCode : Cause → Word
  | .invalidInput => 1
  | .arithmeticFault => 2
  | .illegalCommand => 3
  | .notReady => 4

/-- `raise F(info)` "does exactly this and nothing more" (R206): the fault is recorded and control returns to the
host. There is no handler, no vector and no saved program counter. -/
def State.raise (s : State) (c : Cause) (info : Word) : State :=
  { s with csr := { s.csr with status := 1#1, fcode := causeCode c, finfo := info } }

/-- `HostReset` (70_reset_and_hazards.md R230), the only return from a fault (R208): every register takes its
reset value and the contents of every data space become unspecified. The parameters are fixed when the block
is built and stay. -/
def hostReset (s : State) : State :=
  { s with csr := Csrs.reset, mem := Memory.unspecified }

/-! ### The checks of a command, before any of its writes (30_encoding.md R80, 00_scope.md R15) -/

/-- The geometry check: InvalidInput (60_exceptions.md R201). -/
def State.checkGeometry (s : State) (run : State → State) : State :=
  if s.geomLegal then run s else s.raise .invalidInput s.geomInfo

/-- The valid-bit check: NotReady with the mask of all the bits needed and found 0 (60_exceptions.md R203). -/
def State.checkValid (s : State) (need : List Space) (run : State → State) : State :=
  if s.missing need = 0 then run s else s.raise .notReady ((s.missing need).setWidth 32)

/-! ### Host access to the control registers (10_state.md R21 to R38) -/

/-- `HostReadCsr(n)`: the register's 32 bits; a reserved number reads 0 (R32). -/
def readCsr (s : State) (n : Nat) : Word :=
  match n with
  | 0 => s.csr.ctrl.setWidth 32
  | 1 => s.csr.status.setWidth 32
  | 2 => s.csr.fcode
  | 3 => s.csr.finfo
  | 4 => s.csr.width
  | 5 => s.csr.height
  | 6 => s.csr.quality
  | 7 => s.csr.offi
  | 8 => s.csr.offj
  | 9 => s.csr.valid.setWidth 32
  | 10 => s.csr.tokn
  | 11 => s.csr.outn
  | 12 => s.csr.pstart0
  | 13 => s.csr.pstart1
  | 14 => s.csr.pstart2
  | _ => 0

/-- `HostWriteCsr(n, v)`: reserved bits are dropped (R38), a write to WIDTH or HEIGHT clears the VALID bits of
PIX, the planes and OUT (R31), a write to a read-only or reserved number is ignored (R21, R32). -/
def writeCsr (s : State) (n : Nat) (v : Word) : State :=
  match n with
  | 0 => { s with csr := { s.csr with ctrl := v.setWidth 2 } }
  | 4 => State.clearValid { s with csr := { s.csr with width := v } } geometrySpaces
  | 5 => State.clearValid { s with csr := { s.csr with height := v } } geometrySpaces
  | 6 => { s with csr := { s.csr with quality := v } }
  | 7 => { s with csr := { s.csr with offi := v } }
  | 8 => { s with csr := { s.csr with offj := v } }
  | 9 => { s with csr := { s.csr with valid := v.setWidth 13 } }
  | _ => s

/-! ### Host access to the data spaces (20_memory.md R62, R63) -/

/-- `HostReadMem(SPACE, i)`: the element as its type gives, 0 beyond the space. -/
def hostReadMem (s : State) (sp : Space) (i : Nat) : Int :=
  if i < spaceSize s.cfg sp then s.read sp i else 0

/-- `HostWriteMem(SPACE, i, v)`: the element takes the low bits of `v`; beyond the space the write is ignored. No
valid bit changes. -/
def hostWriteMem (s : State) (sp : Space) (i : Nat) (v : Int) : State :=
  if i < spaceSize s.cfg sp then s.write sp i v else s

end Sys2Proof.Machine
end

