-- ==== Sys2Proof/Machine/BlockDct.lean ====
section
/-! DEFINITION. Units U3 and U4: the block extractor and the forward DCT, commands BLKX and DCT (41_block_dct.md
R120 to R130). A block of 64 integers is a function of its index 0..63. -/

namespace Sys2Proof.Machine

/-! ### Block extractor -/

/-- `blkx(pl, i, j)` at index `8*x + y` (R121): the sample centred, in format S, or exactly 0 outside the plane.
`i + x` and `j + y` do not wrap. -/
def State.blkx (s : State) (pl : Plane) (i j k : Nat) : Int :=
  let r := i + k / 8
  let c := j + k % 8
  if r < s.rows pl ∧ c < s.cols pl then
    planeScale pl * s.read (planeSpace pl) (r * s.cols pl + c) - 512000000
  else 0

/-- BLKX (R123). -/
def execBlkx (pl : Plane) (s : State) : Host.Outcome State Fault Refusal :=
  .next <| s.checkGeometry fun s => s.checkValid [planeSpace pl] fun s =>
    (s.fill .blk 64 (s.blkx pl s.offI s.offJ)).setValid [.blk]

/-! ### Forward DCT -/

/-- `dct(b)` at index `8*p + q` (R126): the double sum over exact integers. -/
def dct (b : Nat → Int) (k : Nat) : Int :=
  normRom (k / 8) (k % 8)
    * sum8 fun m => sum8 fun n => b (8 * m + n) * cosRom m (k / 8) * cosRom n (k % 8)

/-- DCT (R127). -/
def execDct (s : State) : Host.Outcome State Fault Refusal :=
  .next <| s.checkValid [.blk] fun s =>
    (s.fill .coef 64 (dct (s.read .blk))).setValid [.coef]

end Sys2Proof.Machine
end

