-- ==== Sys2Proof/Decode.lean ====
section
/-! DEFINITION. The command word: decoder, total on every 32-bit word and rejecting by name, and encoder
(30_encoding.md R81 to R86). A command word has no byte order (20_memory.md R64): it is an argument of
HostCmd, never fetched. -/

namespace Sys2Proof

/-- Why a word is not one of the 23 legal words (R85, R86). Every one of these makes HostCmd raise
IllegalCommand; the names only say which condition of R85 failed. -/
inductive Reject
  /-- `cw[31:24]` is not in 0x01..0x0A. -/
  | opcode
  /-- `cw[15:0]` is not 0. -/
  | z16
  /-- `cw[19:18]` is not 0. -/
  | z2
  /-- `cw[23:20]` is not a value the opcode takes. -/
  | plane
  /-- `cw[17]` is 1 and the opcode is not QNT. -/
  | res
  /-- `cw[16]` is 1 and the opcode is neither QTBL nor QNT. -/
  | kind
deriving DecidableEq, Repr

/-- `w[hi:lo]` read as an unsigned integer (00_scope.md R13). -/
def bitField (w : Word) (hi lo : Nat) : Nat :=
  (w.toNat >>> lo) % 2 ^ (hi + 1 - lo)

/-- The plane selector's values 0..4; 5..15 are reserved (R82). -/
def planeOfCode : Nat → Option Plane
  | 0 => some .y
  | 1 => some .cb
  | 2 => some .cr
  | 3 => some .scb
  | 4 => some .scr
  | _ => none

/-- `kind` 0 is Luminance, 1 Chrominance (R83). -/
def kindOfCode (k : Nat) : Kind := if k = 0 then .lum else .chr

/-- A command with no free field: `pl`, `res` and `kind` must be 0 (R81, R84). -/
def plain (i : Instr) (pl res kind : Nat) : Except Reject Instr :=
  if pl ≠ 0 then .error .plane
  else if res ≠ 0 then .error .res
  else if kind ≠ 0 then .error .kind
  else .ok i

/-- A command whose free field is `pl`: `res` and `kind` must be 0 and the plane must be one the command
takes (R84). -/
def withPlane (f : Plane → Instr) (pl res kind : Nat) : Except Reject Instr :=
  if res ≠ 0 then .error .res
  else if kind ≠ 0 then .error .kind
  else match planeOfCode pl with
    | none => .error .plane
    | some p => if (f p).wf then .ok (f p) else .error .plane

/-- The opcode map (R84), on the fields of the word. -/
def decodeOp (op pl res kind : Nat) : Except Reject Instr :=
  match op with
  | 0x01 => plain .csc pl res kind
  | 0x02 => withPlane .sub pl res kind
  | 0x03 => withPlane .blkx pl res kind
  | 0x04 => plain .dct pl res kind
  | 0x05 => if pl ≠ 0 then .error .plane else if res ≠ 0 then .error .res else .ok (.qtbl (kindOfCode kind))
  | 0x06 => if pl ≠ 0 then .error .plane else .ok (.qnt (kindOfCode kind) (res == 1))
  | 0x07 => plain .zz pl res kind
  | 0x08 => plain .rle pl res kind
  | 0x09 => withPlane .block pl res kind
  | 0x0A => plain .frame pl res kind
  | _ => .error .opcode

/-- The command a word stands for (R85): the fields of format C (R81), the must-be-zero fields, then the opcode
map. -/
def decode (cw : Word) : Except Reject Instr :=
  if bitField cw 15 0 ≠ 0 then .error .z16
  else if bitField cw 19 18 ≠ 0 then .error .z2
  else decodeOp (bitField cw 31 24) (bitField cw 23 20) (bitField cw 17 17) (bitField cw 16 16)

/-- The code of a plane in field `pl` (R82). -/
def Plane.code : Plane → BitVec 4
  | .y => 0#4
  | .cb => 1#4
  | .cr => 2#4
  | .scb => 3#4
  | .scr => 4#4

/-- The code of a kind in bit 16 (R83). -/
def Kind.code : Kind → BitVec 1
  | .lum => 0#1
  | .chr => 1#1

/-- Format C: `op ++ pl ++ z2 ++ res ++ kind ++ z16` (R81). -/
def formatC (op : BitVec 8) (pl : BitVec 4) (res kind : BitVec 1) : Word :=
  op ++ pl ++ 0#2 ++ res ++ kind ++ 0#16

/-- The word of a command (R84, R85). For the one ill-formed shape, SUB of a plane it does not take, this is the
illegal word that R86 speaks of. -/
def encode : Instr → Word
  | .csc => formatC 0x01#8 0#4 0#1 0#1
  | .sub pl => formatC 0x02#8 pl.code 0#1 0#1
  | .blkx pl => formatC 0x03#8 pl.code 0#1 0#1
  | .dct => formatC 0x04#8 0#4 0#1 0#1
  | .qtbl kind => formatC 0x05#8 0#4 0#1 kind.code
  | .qnt kind res => formatC 0x06#8 0#4 (if res then 1#1 else 0#1) kind.code
  | .zz => formatC 0x07#8 0#4 0#1 0#1
  | .rle => formatC 0x08#8 0#4 0#1 0#1
  | .block pl => formatC 0x09#8 pl.code 0#1 0#1
  | .frame => formatC 0x0A#8 0#4 0#1 0#1

/-- The host's question to the decoder: a word of `nbits` bits, numbered as spec/opcode_table.json numbers
them; bits at and above `nbits` count as 0 (log entry 13). -/
def decodeTableWord (nbits w : Nat) : Option Instr :=
  match decode (BitVec.ofNat 32 (w % 2 ^ nbits)) with
  | .ok i => some i
  | .error _ => none

end Sys2Proof
end

