-- ==== Sys2Proof/Machine/ColorSubsample.lean ====
section
/-! DEFINITION. Units U1 and U2: the colour transform and the chroma subsampler, commands CSC and SUB
(40_color_subsample.md R100 to R107). -/

namespace Sys2Proof.Machine

/-! ### Colour transform -/

/-- `csc_px` (R101): the three format-P integers of a pixel. -/
def cscY (r g b : Int) : Int := 299000 * r + 587000 * g + 114000 * b
def cscCb (r g b : Int) : Int := 128000000 - 168736 * r - 331264 * g + 500000 * b
def cscCr (r g b : Int) : Int := 128000000 + 500000 * r - 418688 * g - 81312 * b

/-- The channels of a pixel word: R in bits 23:16, G in 15:8, B in 7:0 (10_state.md R41). -/
def pixelR (px : BitVec 24) : Int := ((px.toNat >>> 16) % 256 : Nat)
def pixelG (px : BitVec 24) : Int := ((px.toNat >>> 8) % 256 : Nat)
def pixelB (px : BitVec 24) : Int := (px.toNat % 256 : Nat)

/-- One channel function applied to the pixel at row `r`, column `c` of PIX. -/
def State.convertPixel (s : State) (f : Int → Int → Int → Int) (r c : Nat) : Int :=
  let px : BitVec 24 := s.elem .pix (r * s.imgW + c)
  f (pixelR px) (pixelG px) (pixelB px)

/-- The pixel loop of CSC and FRAME (R102, 44_pipeline.md R183): PY, PCB, PCR from PIX. -/
def writeColorPlanes (s : State) : State :=
  ((s.fillPlane .py s.imgH s.imgW (s.convertPixel cscY)).fillPlane .pcb s.imgH s.imgW
    (s.convertPixel cscCb)).fillPlane .pcr s.imgH s.imgW (s.convertPixel cscCr)

/-- CSC (R102). -/
def execCsc (s : State) : Host.Outcome State Fault Refusal :=
  .next <| s.checkGeometry fun s => s.checkValid [.pix] fun s =>
    (writeColorPlanes s).setValid [.py, .pcb, .pcr]

/-! ### Chroma subsampler -/

/-- `g(r, c)` (R105): the sample of a full-resolution plane, 0 outside it. -/
def State.sampleOrZero (s : State) (src : Space) (r c : Nat) : Int :=
  if r < s.imgH ∧ c < s.imgW then s.read src (r * s.imgW + c) else 0

/-- `sub2x2` at output position `[r][c]` (R106): the plain sum of the four positions. -/
def State.sub2x2 (s : State) (src : Space) (r c : Nat) : Int :=
  s.sampleOrZero src (2 * r) (2 * c) + s.sampleOrZero src (2 * r) (2 * c + 1)
    + s.sampleOrZero src (2 * r + 1) (2 * c) + s.sampleOrZero src (2 * r + 1) (2 * c + 1)

/-- The loop of SUB and FRAME (R107, 44_pipeline.md R183): the subsampled plane of a chroma plane. -/
def writeSubsampled (pl : Plane) (s : State) : State :=
  s.fillPlane (subDest pl) (ceilDiv s.imgH 2) (ceilDiv s.imgW 2) (s.sub2x2 (planeSpace pl))

/-- SUB (R107). A plane other than `cb` and `cr` has no legal word: the word it would have raises
IllegalCommand (30_encoding.md R86; log entry 8). -/
def execSub (pl : Plane) (s : State) : Host.Outcome State Fault Refusal :=
  .next <| if pl.subsampled then
    s.checkGeometry fun s => s.checkValid [planeSpace pl] fun s =>
      (writeSubsampled pl s).setValid [subDest pl]
  else s.raise .illegalCommand (encode (.sub pl))

end Sys2Proof.Machine
end

