-- ==== Sys2Proof/Machine/Quantizer.lean ====
section
/-! DEFINITION. Unit U5: the quantizer, commands QTBL and QNT (42_quantizer.md R140 to R150). -/

namespace Sys2Proof.Machine

/-! ### The scaled table -/

/-- Entry `i` of the base table of a kind (R141, R142). -/
def baseEntry (c : Config) (kind : Kind) (i : Nat) : Int :=
  match kind with
  | .lum => (c.baseLum.getD i 1 : Nat)
  | .chr => (c.baseChr.getD i 1 : Nat)

/-- `qe = clamp(quality, 1, 99)` (R143). -/
def effectiveQuality (quality : Int) : Int := clamp quality 1 99

/-- Entry `i` of `qtable(kind, quality, c255)` (R145), over the base tables of a configuration. -/
def qtable (c : Config) (kind : Kind) (quality : Int) (c255 : Bool) (i : Nat) : Int :=
  let qe := effectiveQuality quality
  let scaled :=
    if qe < 50 then floorDiv (baseEntry c kind i * 50) qe
    else floorDiv (baseEntry c kind i * (100 - qe)) 50
  let v := max 1 scaled
  if c255 then min 255 v else v

/-- The table QTBL and a fresh QNT build: the quality and CTRL.C255 as they stand (R144, R146). -/
def State.freshTable (s : State) (kind : Kind) : Nat → Int :=
  qtable s.cfg kind s.qualityReg s.c255

/-- Write a table to QT and declare it valid. -/
def State.loadTable (s : State) (t : Nat → Int) : State := (s.fill .qt 64 t).setValid [.qt]

/-- QTBL (R144). -/
def execQtbl (kind : Kind) (s : State) : Host.Outcome State Fault Refusal :=
  .next (s.loadTable (s.freshTable kind))

/-! ### The division -/

/-- `COEF_DEN` (00_scope.md R8), the unit of format F: 4,000,000 * 2^90. -/
def coefDen : Int := 4951760157141521099596496896000000

/-- `quant(f, t, rnd)` on one coefficient and its divisor (R148). -/
def quant (rnd : Bool) (f t : Int) : Int :=
  if rnd then nearDiv f (t * coefDen) else truncDiv f (t * coefDen)

/-- Divide COEF by a table and write QC (R146). -/
def State.quantizeBy (s : State) (t : Nat → Int) : State :=
  (s.fill .qc 64 fun k => quant s.rnd (s.read .coef k) (t k)).setValid [.qc]

/-- The lowest index `i` in 0..63 with `QT[i] = 0` (R147). -/
def State.zeroDivisor (s : State) : Option Nat :=
  (List.range 64).find? fun i => s.read .qt i == 0

/-- QNT with a fresh table: build it, write it to QT, divide by it (R146). -/
def quantizeFresh (kind : Kind) (s : State) : State :=
  (s.loadTable (s.freshTable kind)).quantizeBy (s.freshTable kind)

/-- QNT with the table standing in QT; a zero entry raises ArithmeticFault before any division (R146, R147). -/
def quantizeResident (s : State) : State :=
  match s.zeroDivisor with
  | some i => s.raise .arithmeticFault (BitVec.ofNat 32 i)
  | none => s.quantizeBy (s.read .qt)

/-- QNT (R146). -/
def execQnt (kind : Kind) (res : Bool) (s : State) : Host.Outcome State Fault Refusal :=
  .next <| if res then s.checkValid [.coef, .qt] quantizeResident
    else s.checkValid [.coef] (quantizeFresh kind)

end Sys2Proof.Machine
end

