-- ==== Sys2Proof/Machine/ZigzagRle.lean ====
section
/-! DEFINITION. Units U6 and U7: the zig-zag reorderer and the run-length encoder, commands ZZ and RLE
(43_zigzag_rle.md R160 to R166). -/

namespace Sys2Proof.Machine

/-! ### Zig-zag reorderer -/

/-- `zigzag(qc)` at position `i` (R161): a gather, the table entry is the source index. This is not the canonical
JPEG path (90_conflicts.md C1). -/
def zigzag (qc : Nat → Int) (i : Nat) : Int := qc (zzRom i)

/-- ZZ (R162). -/
def execZz (s : State) : Host.Outcome State Fault Refusal :=
  .next <| s.checkValid [.qc] fun s => (s.fill .zz 64 (zigzag (s.read .qc))).setValid [.zz]

/-! ### Run-length encoder -/

/-- Put one value before a list of maximal runs. -/
def consRun (v : Int) : List (Int × Nat) → List (Int × Nat)
  | [] => [(v, 1)]
  | (u, n) :: rest => if u = v then (u, n + 1) :: rest else (v, 1) :: (u, n) :: rest

/-- The maximal runs of consecutive equal values, left to right, as (value, runLength) (R164). -/
def runs : List Int → List (Int × Nat)
  | [] => []
  | v :: rest => consRun v (runs rest)

/-- `rle(zz)` (R164): the runs, then the sentinel (0, 0). -/
def rle (zz : List Int) : List (Int × Nat) := runs zz ++ [(0, 0)]

/-- `tok(v, n)` (10_state.md R49): value in bits 31:16, bits 15:7 zero, run length in bits 6:0. -/
def tokWord (t : Int × Nat) : Word := BitVec.ofInt 16 t.1 ++ 0#9 ++ BitVec.ofNat 7 t.2

/-- The 64 values of a block, in order. -/
def list64 (f : Nat → Int) : List Int := (List.range 64).map f

/-- Write tokens to TOK, their number to TOKN (R165). -/
def State.loadTokens (s : State) (toks : List (Int × Nat)) : State :=
  let s' := s.fillBits .tok (toks.map tokWord)
  { s' with csr := { s'.csr with tokn := BitVec.ofNat 32 toks.length } }

/-- RLE (R165). -/
def execRle (s : State) : Host.Outcome State Fault Refusal :=
  .next <| s.checkValid [.zz] fun s =>
    (s.loadTokens (rle (list64 (s.read .zz)))).setValid [.tok]

end Sys2Proof.Machine
end

