-- ==== Sys2Proof/Machine/Pipeline.lean ====
section
/-! DEFINITION. The composite commands BLOCK and FRAME (44_pipeline.md R180 to R188). They add no arithmetic of
their own. -/

namespace Sys2Proof.Machine

/-! ### One block (R182) -/

/-- The coefficients `f` of `block_pipe`. -/
def State.blockCoef (s : State) (pl : Plane) (i j : Nat) : Nat → Int := dct (s.blkx pl i j)

/-- The table `t` of `block_pipe`: its kind follows from the plane (42_quantizer.md R150). -/
def State.blockTable (s : State) (pl : Plane) : Nat → Int := s.freshTable (planeKind pl)

/-- The quantized coefficients `q` of `block_pipe`. -/
def State.blockQuant (s : State) (pl : Plane) (i j k : Nat) : Int :=
  quant s.rnd (s.blockCoef pl i j k) (s.blockTable pl k)

/-- The sequence `z` of `block_pipe`. -/
def State.blockZigzag (s : State) (pl : Plane) (i j : Nat) : Nat → Int := zigzag (s.blockQuant pl i j)

/-- The tokens `tk` of `block_pipe`. -/
def State.blockTokens (s : State) (pl : Plane) (i j : Nat) : List (Int × Nat) :=
  rle (list64 (s.blockZigzag pl i j))

/-- The writes of BLOCK (R181), for the block at offset `(i, j)`. -/
def writeBlock (pl : Plane) (i j : Nat) (s : State) : State :=
  let s1 := s.fill .blk 64 (s.blkx pl i j)
  let s2 := s1.fill .coef 64 (s.blockCoef pl i j)
  let s3 := s2.fill .qt 64 (s.blockTable pl)
  let s4 := s3.fill .qc 64 (s.blockQuant pl i j)
  let s5 := s4.fill .zz 64 (s.blockZigzag pl i j)
  (s5.loadTokens (s.blockTokens pl i j)).setValid blockSpaces

/-- BLOCK (R181). -/
def execBlock (pl : Plane) (s : State) : Host.Outcome State Fault Refusal :=
  .next <| s.checkGeometry fun s => s.checkValid [planeSpace pl] fun s =>
    writeBlock pl s.offI s.offJ s

/-! ### The whole image (R183) -/

/-- The block offsets of a plane in row-major block order, stepping by 8 (41_block_dct.md R124). -/
def blockOffsets (rows cols : Nat) : List (Nat × Nat) :=
  (List.range (ceilDiv rows 8)).flatMap fun a =>
    (List.range (ceilDiv cols 8)).map fun b => (8 * a, 8 * b)

/-- The tokens of all blocks of one plane, back to back (R184). -/
def State.planeTokens (s : State) (pl : Plane) : List (Int × Nat) :=
  (blockOffsets (s.rows pl) (s.cols pl)).flatMap fun ij => s.blockTokens pl ij.1 ij.2

/-- Units U1 and U2, "once per image": the five planes (R183). -/
def writeAllPlanes (s : State) : State :=
  writeSubsampled .cr (writeSubsampled .cb (writeColorPlanes s))

/-- The end of FRAME: OUT, the counts and starts, the valid bits; the six per-block spaces become unspecified
(R183; 93_implementation_defined.md U2; log entry 11). -/
def State.loadOutput (s : State) (ty tcb tcr : List (Int × Nat)) : State :=
  let s' := (s.fillBits .out ((ty ++ tcb ++ tcr).map tokWord)).forget blockSpaces
  ({ s' with csr := { s'.csr with
      tokn := 0
      outn := BitVec.ofNat 32 (ty ++ tcb ++ tcr).length
      pstart0 := 0
      pstart1 := BitVec.ofNat 32 ty.length
      pstart2 := BitVec.ofNat 32 (ty ++ tcb).length } }.setValid
    [.py, .pcb, .pcr, .scb, .scr, .out]).clearValid blockSpaces

/-- The writes of FRAME (R183): the planes, then the blocks of Y, subsampled Cb and subsampled Cr, read from the
planes as just written. -/
def writeFrame (s : State) : State :=
  let p := writeAllPlanes s
  p.loadOutput (p.planeTokens .y) (p.planeTokens .scb) (p.planeTokens .scr)

/-- FRAME (R183). -/
def execFrame (s : State) : Host.Outcome State Fault Refusal :=
  .next <| s.checkGeometry fun s => s.checkValid [.pix] writeFrame

end Sys2Proof.Machine
end

