-- ==== Sys2Proof/Machine/Dispatch.lean ====
section
/-! DEFINITION. One arm per command (30_encoding.md R80 step 3). The check of STATUS.FAULT and the decoding stand
before it, in Machine/Issue.lean. -/

namespace Sys2Proof.Machine

def exec (i : Instr) (s : State) : Host.Outcome State Fault Refusal :=
  match i with
  | .csc => Sys2Proof.Machine.execCsc s
  | .sub pl => Sys2Proof.Machine.execSub pl s
  | .blkx pl => Sys2Proof.Machine.execBlkx pl s
  | .dct => Sys2Proof.Machine.execDct s
  | .qtbl kind => Sys2Proof.Machine.execQtbl kind s
  | .qnt kind res => Sys2Proof.Machine.execQnt kind res s
  | .zz => Sys2Proof.Machine.execZz s
  | .rle => Sys2Proof.Machine.execRle s
  | .block pl => Sys2Proof.Machine.execBlock pl s
  | .frame => Sys2Proof.Machine.execFrame s

end Sys2Proof.Machine
end

