-- ==== Sys2Proof/Machine/Issue.lean ====
section
/-! DEFINITION. Performing one host action (00_scope.md R10), HostCmd among them (30_encoding.md R80). -/

namespace Sys2Proof.Machine

/-- `HostCmd(cw)` (R80): dropped while a fault is recorded (60_exceptions.md R207), IllegalCommand for a word that
is not legal (R204), else the command executes. -/
def hostCmd (cw : Word) (s : State) : Host.Outcome State Fault Refusal :=
  if s.faulted then .next s
  else match decode cw with
    | .error _ => .next (s.raise .illegalCommand cw)
    | .ok i => exec i s

/-- Take the oldest host action off the queue: the reply of the action before it is gone, and the free values of
unwritten elements are drawn anew (log entries 1, 4, 5, 6). -/
def State.advance (s : State) (rest : List HostAction) : State :=
  { s with pending := rest, reply := none, draws := s.draws + 1 }

/-- Perform one host action (00_scope.md R10). A read changes nothing but what the host is answered. -/
def perform (a : HostAction) (s : State) : Host.Outcome State Fault Refusal :=
  match a with
  | .reset => .next (hostReset s)
  | .writeCsr n v => .next (writeCsr s n v)
  | .readCsr n => .next { s with reply := some (.csr (readCsr s n)) }
  | .writeMem sp i v => .next (hostWriteMem s sp i v)
  | .readMem sp i => .next { s with reply := some (.elem (hostReadMem s sp i)) }
  | .command cw => hostCmd cw s

/-- A command word as the host's next action: the table's bit numbering is the word's own (log entry 13). -/
def State.issueNext (s : State) (nbits w : Nat) : State :=
  { s with pending := .command (BitVec.ofNat 32 (w % 2 ^ nbits)) :: s.pending }

end Sys2Proof.Machine
end

