-- ==== Sys2Proof/Safety.lean ====
section
/-! DEFINITION. What counts as a good state: the invariant every step keeps, whichever host action it performs. -/

namespace Sys2Proof.Machine

/-- The fault record is consistent: without a fault FCODE and FINFO are 0; with one they hold a code and a detail
of that code's form (10_state.md R24, R25; 60_exceptions.md R200 to R204). NotReady can only name the spaces
that some command needs, VALID bits 0 to 10. -/
def State.faultRecordOk (s : State) : Prop :=
  (s.csr.status = 0#1 → s.csr.fcode = 0 ∧ s.csr.finfo = 0)
  ∧ (s.csr.status = 1#1 →
      (s.csr.fcode = 1 ∧ 1 ≤ s.csr.finfo.toNat ∧ s.csr.finfo.toNat ≤ 3)
      ∨ (s.csr.fcode = 2 ∧ s.csr.finfo.toNat < 64)
      ∨ (s.csr.fcode = 3 ∧ ∀ i, decode s.csr.finfo ≠ .ok i)
      ∨ (s.csr.fcode = 4 ∧ 0 < s.csr.finfo.toNat ∧ s.csr.finfo.toNat < 0x800))

/-- TOKN is 0 or a number of tokens a block can have (10_state.md R34). -/
def State.tokenCountOk (s : State) : Prop :=
  s.csr.tokn.toNat = 0 ∨ (2 ≤ s.csr.tokn.toNat ∧ s.csr.tokn.toNat ≤ 65)

/-- The plane starts are in order and the tokens fit OUT (10_state.md R36, R51). -/
def State.outputOk (s : State) : Prop :=
  s.csr.pstart0 = 0 ∧ s.csr.pstart1.toNat ≤ s.csr.pstart2.toNat
  ∧ s.csr.pstart2.toNat ≤ s.csr.outn.toNat ∧ s.csr.outn.toNat ≤ outCap s.cfg

/-- The invariant. -/
structure State.Inv (s : State) : Prop where
  memory : s.mem.wf s.cfg = true
  faultRecord : s.faultRecordOk
  tokenCount : s.tokenCountOk
  output : s.outputOk

/-- A step that completes: the machine has not stopped. -/
def State.stepCompletes (s : State) : Prop := ∃ t, step s = .next t

end Sys2Proof.Machine
end

