-- ==== Sys2Proof/Certificates/Slice0/Obligations.lean ====
section
/-! DEFINITION. The statements for the provers. The formulas of the rules are written out here again, apart from the
model's own definitions of them, so that a slip in one is not a slip in both. -/

namespace Sys2Proof.Claims

open Sys2Proof.Machine

/-! ### The rules' own formulas -/

/-- The 23 legal words and the commands they stand for, as 30_encoding.md R85 lists them. -/
def legalWords : List (Word × Instr) := [
  (0x01000000, .csc),
  (0x02100000, .sub .cb), (0x02200000, .sub .cr),
  (0x03000000, .blkx .y), (0x03100000, .blkx .cb), (0x03200000, .blkx .cr),
  (0x03300000, .blkx .scb), (0x03400000, .blkx .scr),
  (0x04000000, .dct),
  (0x05000000, .qtbl .lum), (0x05010000, .qtbl .chr)] ++ [
  (0x06000000, .qnt .lum false), (0x06010000, .qnt .chr false),
  (0x06020000, .qnt .lum true), (0x06030000, .qnt .chr true),
  (0x07000000, .zz), (0x08000000, .rle),
  (0x09000000, .block .y), (0x09100000, .block .cb), (0x09200000, .block .cr),
  (0x09300000, .block .scb), (0x09400000, .block .scr),
  (0x0A000000, .frame)]

/-- ZZROM as 43_zigzag_rle.md R160 prints it. -/
def zigzagTable : List Nat := [
  0, 1, 5, 6, 14, 15, 27, 28, 2, 4, 7, 13, 16, 26, 29, 42,
  3, 8, 12, 17, 25, 30, 41, 43, 9, 11, 18, 24, 31, 40, 44, 53] ++ [
  10, 19, 23, 32, 39, 45, 52, 54, 20, 22, 33, 38, 46, 51, 55, 60,
  21, 34, 37, 47, 50, 56, 59, 61, 35, 36, 48, 49, 57, 58, 62, 63]

/-- COSROM as 10_state.md R52 prints it, row by row. -/
def cosineTable : List Int := [
  1073741824, 1053110176, 992008094, 892783698, 759250125, 596538995, 410903207, 209476638,
  1073741824, 892783698, 410903207, -209476638, -759250125, -1053110176, -992008094, -596538995,
  1073741824, 596538995, -410903207, -1053110176, -759250125, 209476638, 992008094, 892783698,
  1073741824, 209476638, -992008094, -596538995, 759250125, 892783698, -410903207, -1053110176] ++ [
  1073741824, -209476638, -992008094, 596538995, 759250125, -892783698, -410903207, 1053110176,
  1073741824, -596538995, -410903207, 1053110176, -759250125, -209476638, 992008094, -892783698,
  1073741824, -892783698, 410903207, 209476638, -759250125, 1053110176, -992008094, 596538995,
  1073741824, -1053110176, 992008094, -892783698, 759250125, -596538995, 410903207, -209476638]

/-- `COSROM[m][p]`, for `m` and `p` in 0..7 (R52). -/
def cosine (m p : Nat) : Int := cosineTable[8 * m + p]?.getD 0

/-- `NORM(p, q)`, by how many of `p`, `q` are zero (10_state.md R53). -/
def norm (p q : Nat) : Int :=
  match p, q with
  | 0, 0 => 2 ^ 27
  | 0, _ + 1 => 189812531
  | _ + 1, 0 => 189812531
  | _ + 1, _ + 1 => 2 ^ 28

/-- The register each number of the table of 10_state.md R21 stands for, as the 32 bits the host reads: reserved
bits and reserved numbers read 0 (R32, R38). -/
def registerValue (s : State) (n : Nat) : Word :=
  [s.csr.ctrl.setWidth 32, s.csr.status.setWidth 32, s.csr.fcode, s.csr.finfo, s.csr.width, s.csr.height,
    s.csr.quality, s.csr.offi, s.csr.offj, s.csr.valid.setWidth 32, s.csr.tokn, s.csr.outn, s.csr.pstart0,
    s.csr.pstart1, s.csr.pstart2][n]?.getD 0

/-- `W` and `H` of 10_state.md R39. -/
def imageWidth (s : State) : Nat := s.csr.width.toInt.toNat
def imageHeight (s : State) : Nat := s.csr.height.toInt.toNat

/-- The legal geometry of 60_exceptions.md R201. -/
abbrev widthOk (s : State) : Prop := 1 ≤ s.csr.width.toInt ∧ s.csr.width.toInt ≤ s.cfg.maxW
abbrev heightOk (s : State) : Prop := 1 ≤ s.csr.height.toInt ∧ s.csr.height.toInt ≤ s.cfg.maxH
abbrev geometryOk (s : State) : Prop := widthOk s ∧ heightOk s

/-- `geom_info(W, H)` of R201. -/
def geometryInfo (s : State) : Word :=
  BitVec.ofNat 32 ((if widthOk s then 0 else 1) + (if heightOk s then 0 else 2))

/-- Rows and columns of a plane (R39). -/
def planeRows (s : State) : Plane → Nat
  | .y | .cb | .cr => imageHeight s
  | .scb | .scr => (imageHeight s + 1) / 2
def planeCols (s : State) : Plane → Nat
  | .y | .cb | .cr => imageWidth s
  | .scb | .scr => (imageWidth s + 1) / 2

/-- `space(pl)` and `vbit(pl)` (30_encoding.md R82). -/
def spaceOf : Plane → Space
  | .y => .py | .cb => .pcb | .cr => .pcr | .scb => .scb | .scr => .scr
def validBitOf : Plane → Nat
  | .y => 1 | .cb => 2 | .cr => 3 | .scb => 4 | .scr => 5

/-- The state `raise F(info)` leaves (60_exceptions.md R206). -/
def faultState (s : State) (code info : Word) : State :=
  { s with csr := { s.csr with status := 1#1, fcode := code, finfo := info } }

/-- The channels of a pixel word (10_state.md R41). -/
def red (px : BitVec 24) : Int := (px.extractLsb 23 16).toNat
def green (px : BitVec 24) : Int := (px.extractLsb 15 8).toNat
def blue (px : BitVec 24) : Int := (px.extractLsb 7 0).toNat

/-- The three planes `py`, `pcb`, `pcr` of a state hold the colour transform of the pixels of another
(40_color_subsample.md R101). -/
def holdsColourTransform (s t : State) : Prop :=
  ∀ r < imageHeight s, ∀ c < imageWidth s,
    let k := r * imageWidth s + c
    let px : BitVec 24 := s.elem .pix k
    t.read .py k = 299000 * red px + 587000 * green px + 114000 * blue px
    ∧ t.read .pcb k = 128000000 - 168736 * red px - 331264 * green px + 500000 * blue px
    ∧ t.read .pcr k = 128000000 + 500000 * red px - 418688 * green px - 81312 * blue px

/-- `g(r, c)` of 40_color_subsample.md R105. -/
def sampleAt (s : State) (src : Space) (r c : Nat) : Int :=
  if r < imageHeight s ∧ c < imageWidth s then s.read src (r * imageWidth s + c) else 0

/-- Space `dst` of one state holds the subsample of space `src` of another (R106). -/
def holdsSubsample (s t : State) (src dst : Space) : Prop :=
  ∀ r < (imageHeight s + 1) / 2, ∀ c < (imageWidth s + 1) / 2,
    t.read dst (r * ((imageWidth s + 1) / 2) + c)
      = sampleAt s src (2 * r) (2 * c) + sampleAt s src (2 * r) (2 * c + 1)
        + sampleAt s src (2 * r + 1) (2 * c) + sampleAt s src (2 * r + 1) (2 * c + 1)

/-- `blkx(pl, i, j)` at `8*x + y` (41_block_dct.md R121). -/
def blockSample (s : State) (pl : Plane) (i j x y : Nat) : Int :=
  if i + x < planeRows s pl ∧ j + y < planeCols s pl then
    (match pl with | .y | .cb | .cr => 4 | .scb | .scr => 1)
      * s.read (spaceOf pl) ((i + x) * planeCols s pl + (j + y)) - 512000000
  else 0

/-- `dct(b)` at `8*p + q` (R126), the sums as finite sums over 0..7, the tables as R52 and R53 print them. -/
def dctSum (b : Nat → Int) (p q : Nat) : Int :=
  norm p q * ∑ m ∈ Finset.range 8, ∑ n ∈ Finset.range 8, b (8 * m + n) * cosine m p * cosine n q

/-- Entry `i` of `qtable` (42_quantizer.md R143, R145). -/
def scaledEntry (c : Config) (kind : Kind) (quality : Int) (c255 : Bool) (i : Nat) : Int :=
  let base : Int := ((match kind with | .lum => c.baseLum | .chr => c.baseChr)[i]?.getD 0 : Nat)
  let qe := max 1 (min 99 quality)
  let v := max 1 (if qe < 50 then Int.fdiv (base * 50) qe else Int.fdiv (base * (100 - qe)) 50)
  if c255 then min 255 v else v

/-- `q[k]` of `quant` (R148) for a coefficient `f` and a divisor `t`. -/
def quotient (rnd : Bool) (f t : Int) : Int :=
  let d := t * (4000000 * 2 ^ 90)
  if rnd then Int.fdiv (2 * f + d) (2 * d) else Int.tdiv f d

/-- Runs expanded: each `(v, n)` gives `v` repeated `n` times (43_zigzag_rle.md R166). -/
def expandRuns (ts : List (Int × Nat)) : List Int := ts.flatMap fun t => List.replicate t.2 t.1

/-- `ts` are the maximal runs of a sequence (R164): they expand to it, no run is empty, neighbours differ. -/
def maximalRuns (ts : List (Int × Nat)) (l : List Int) : Prop :=
  expandRuns ts = l ∧ (∀ t ∈ ts, 1 ≤ t.2) ∧ ts.IsChain fun a b => a.1 ≠ b.1

/-- A word is the token `(v, n)` (10_state.md R49). -/
def isToken (w : Word) (t : Int × Nat) : Prop :=
  (w.extractLsb 31 16).toInt = t.1 ∧ (w.extractLsb 15 7).toNat = 0 ∧ (w.extractLsb 6 0).toNat = t.2

/-- TOK and TOKN hold the run-length code of the sequence in ZZ of state `z` (R164, R165). -/
def holdsTokensOf (z t : State) : Prop :=
  ∃ ts, maximalRuns ts ((List.range 64).map (z.read .zz)) ∧ t.csr.tokn.toNat = ts.length + 1
    ∧ (∀ k, (h : k < ts.length) → isToken (t.elem .tok k) ts[k]) ∧ t.elem .tok ts.length = 0#32

/-! ### Frames -/

/-- The model's own fields are as they were. -/
def sameModelFields (s t : State) : Prop :=
  t.cfg = s.cfg ∧ t.pending = s.pending ∧ t.reply = s.reply ∧ t.draws = s.draws

/-- Every element of every space reads as before, but those in `stored`. -/
def unchangedOutside (s t : State) (stored : Space → Nat → Prop) : Prop :=
  ∀ sp i, ¬ stored sp i → t.read sp i = s.read sp i

/-- The control registers are exactly `csr`, and nothing outside `stored` has changed. -/
def changesOnly (s t : State) (csr : Csrs) (stored : Space → Nat → Prop) : Prop :=
  t.csr = csr ∧ sameModelFields s t ∧ unchangedOutside s t stored

/-! ### Faults of a command (60_exceptions.md R200 to R205, R214) -/

def usesGeometry : Instr → Bool
  | .csc | .sub _ | .blkx _ | .block _ | .frame => true
  | .dct | .qtbl _ | .qnt _ _ | .zz | .rle => false

/-- The VALID bits a command needs (the table of R203). -/
def neededBits : Instr → BitVec 13
  | .csc => 0x0001
  | .sub .cb => 0x0004
  | .sub .cr => 0x0008
  | .sub _ => 0
  | .blkx .y | .block .y => 0x0002
  | .blkx .cb | .block .cb => 0x0004
  | .blkx .cr | .block .cr => 0x0008
  | .blkx .scb | .block .scb => 0x0010
  | .blkx .scr | .block .scr => 0x0020
  | .dct => 0x0040
  | .qtbl _ => 0
  | .qnt _ false => 0x0080
  | .qnt _ true => 0x0180
  | .zz => 0x0200
  | .rle => 0x0400
  | .frame => 0x0001

def missingBits (i : Instr) (s : State) : BitVec 13 := neededBits i &&& ~~~ s.csr.valid

def dividesByResident : Instr → Bool
  | .qnt _ true => true
  | _ => false

/-- The one fault a legal command reports, with its code and detail, in the order of R205. -/
def faultsWith (i : Instr) (s : State) (code info : Word) : Prop :=
  (code = 1 ∧ usesGeometry i = true ∧ ¬ geometryOk s ∧ info = geometryInfo s)
  ∨ (code = 4 ∧ (usesGeometry i = true → geometryOk s) ∧ missingBits i s ≠ 0
      ∧ info = (missingBits i s).setWidth 32)
  ∨ (code = 2 ∧ dividesByResident i = true ∧ missingBits i s = 0
      ∧ ∃ k < 64, s.read .qt k = 0 ∧ (∀ j < k, s.read .qt j ≠ 0) ∧ info = BitVec.ofNat 32 k)

/-! ### The whole image -/

/-- The block offsets of a plane: `i = 0, 8, ...` below `rows`, for each `i` `j = 0, 8, ...` below `cols`
(41_block_dct.md R124). -/
def offsetsOf (rows cols : Nat) : List (Nat × Nat) :=
  (List.range ((rows + 7) / 8)).flatMap fun a => (List.range ((cols + 7) / 8)).map fun b => (8 * a, 8 * b)

/-- `nb(pl)` (44_pipeline.md R184). -/
def blockCount (s : State) (pl : Plane) : Nat := ((planeRows s pl + 7) / 8) * ((planeCols s pl + 7) / 8)

/-- `TOK[0 .. TOKN-1]` as left by `wr OFFI, i; wr OFFJ, j; BLOCK pl` (R185). -/
def hostBlockTokens (s : State) (pl : Plane) (i j : Nat) : List Word :=
  match exec (.block pl) (writeCsr (writeCsr s 7 (BitVec.ofNat 32 i)) 8 (BitVec.ofNat 32 j)) with
  | .next u => (List.range u.csr.tokn.toNat).map fun k => u.elem .tok k
  | .fault _ => []
  | .refused _ => []

/-- The concatenation of those readings over the offsets of one plane. -/
def hostPlaneTokens (s : State) (pl : Plane) : List Word :=
  (offsetsOf (planeRows s pl) (planeCols s pl)).flatMap fun ij => hostBlockTokens s pl ij.1 ij.2

/-- `OUT[0 .. n-1]`. -/
def outWords (t : State) (n : Nat) : List Word := (List.range n).map fun k => t.elem .out k

/-- The two states agree on everything a command may read: the registers, the parameters, the samples inside the
planes, the 64 elements of the block spaces (20_memory.md R67). -/
def agreeOnReadable (s s' : State) : Prop :=
  s.csr = s'.csr ∧ s.cfg = s'.cfg ∧ s.draws = s'.draws
  ∧ (∀ sp ∈ [Space.pix, .py, .pcb, .pcr], ∀ k < imageHeight s * imageWidth s, s.elem sp k = s'.elem sp k)
  ∧ (∀ sp ∈ [Space.scb, .scr], ∀ k < ((imageHeight s + 1) / 2) * ((imageWidth s + 1) / 2),
      s.elem sp k = s'.elem sp k)
  ∧ (∀ sp ∈ [Space.blk, .coef, .qt, .qc, .zz], ∀ k < 64, s.elem sp k = s'.elem sp k)

end Sys2Proof.Claims

open Sys2Proof Sys2Proof.Machine Sys2Proof.Claims

/-! ### Encoding -/

/-- A few of the words of R85, one of each shape, decode to their commands (sanity). -/
def Obligations.SampleWordsDecode : Prop :=
  decode 0x01000000 = .ok .csc ∧ decode 0x02200000 = .ok (.sub .cr) ∧ decode 0x03400000 = .ok (.blkx .scr)
  ∧ decode 0x05010000 = .ok (.qtbl .chr) ∧ decode 0x06030000 = .ok (.qnt .chr true)
  ∧ decode 0x09300000 = .ok (.block .scb) ∧ decode 0x0A000000 = .ok .frame

/-- Decode and encode agree, both ways: a word decodes to a command exactly when the command is well formed and
the word is its encoding. -/
def Obligations.DecodeIsInverseOfEncode : Prop :=
  ∀ (w : Word) (i : Instr), decode w = .ok i ↔ (i.wf = true ∧ encode i = w)

/-- 30_encoding.md R85: a word is legal exactly when the fields are as listed, and exactly when it is one of the 23
listed words, each of which stands for the listed command. -/
def Obligations.LegalWordsAreExactlyThose : Prop :=
  ∀ w : Word,
    ((∃ i, decode w = .ok i) ↔
      (0x01 ≤ (w.extractLsb 31 24).toNat ∧ (w.extractLsb 31 24).toNat ≤ 0x0A)
      ∧ w.extractLsb 15 0 = 0 ∧ w.extractLsb 19 18 = 0
      ∧ ((w.extractLsb 31 24).toNat ∉ [0x02, 0x03, 0x09] → (w.extractLsb 23 20).toNat = 0)
      ∧ ((w.extractLsb 31 24).toNat = 0x02 → (w.extractLsb 23 20).toNat ∈ [1, 2])
      ∧ ((w.extractLsb 31 24).toNat ∈ [0x03, 0x09] → (w.extractLsb 23 20).toNat ≤ 4)
      ∧ ((w.extractLsb 31 24).toNat ∉ [0x05, 0x06] → w.extractLsb 16 16 = 0)
      ∧ ((w.extractLsb 31 24).toNat ≠ 0x06 → w.extractLsb 17 17 = 0))
    ∧ (∀ i, decode w = .ok i ↔ (w, i) ∈ legalWords)
    ∧ legalWords.length = 23

/-! ### Steps -/

/-- A step runs the decoded command: with no fault recorded, the oldest action a command whose word decodes to `i`,
the step is `exec i` on the state in which that action has been taken off the queue. What taking it off changes:
`pending`, `reply` and the draw counter, nothing of the hardware. -/
def Obligations.StepRunsDecodedCommand : Prop :=
  ∀ (s : State) (cw : Word) (rest : List HostAction) (i : Instr),
    s.pending = .command cw :: rest → s.csr.status = 0#1 → decode cw = .ok i →
    step s = exec i (s.advance rest)
    ∧ (s.advance rest).csr = s.csr ∧ (s.advance rest).mem = s.mem ∧ (s.advance rest).cfg = s.cfg
    ∧ (s.advance rest).pending = rest ∧ (s.advance rest).reply = none
    ∧ (s.advance rest).draws = s.draws + 1

/-- 60_exceptions.md R220: idle, the block holds all its state. -/
def Obligations.IdleBlockHoldsItsState : Prop :=
  ∀ s : State, s.pending = [] → step s = .next s

/-- 30_encoding.md R80: every step completes; nothing stalls, hangs or stops. -/
def Obligations.EveryStepCompletes : Prop := ∀ s : State, s.stepCompletes

/-- 60_exceptions.md R204: a word that is none of the 23 legal ones raises IllegalCommand and does nothing else. -/
def Obligations.IllegalWordRaisesIllegalCommand : Prop :=
  ∀ (s : State) (cw : Word) (rest : List HostAction),
    s.pending = .command cw :: rest → s.csr.status = 0#1 → (∀ p ∈ legalWords, p.1 ≠ cw) →
    step s = .next (faultState (s.advance rest) 3 cw)

/-- 60_exceptions.md R207: while FAULT = 1 every command, legal or not, is dropped, and the other five host actions
act on registers and spaces, and answer the host, as they do when FAULT = 0 (STATUS itself aside). -/
def Obligations.FaultedBlockDropsCommands : Prop :=
  ∀ (s : State) (a : HostAction) (rest : List HostAction),
    s.pending = a :: rest → s.csr.status = 1#1 →
    (∀ cw, a = .command cw → step s = .next (s.advance rest))
    ∧ ((∀ cw, a ≠ .command cw) →
        ∃ t u, step s = .next t ∧ step { s with csr := { s.csr with status := 0#1 } } = .next u
          ∧ t.mem = u.mem ∧ { t.csr with status := 0#1 } = { u.csr with status := 0#1 }
          ∧ t.cfg = s.cfg ∧ t.pending = rest
          ∧ (a ≠ .reset → t.csr.status = 1#1) ∧ (a ≠ .readCsr 1 → t.reply = u.reply))

/-- 60_exceptions.md R209: once FAULT = 1 no second fault is recorded; the record stands until HostReset, which
clears it (R208). -/
def Obligations.FaultRecordStandsUntilReset : Prop :=
  ∀ s t : State, s.csr.status = 1#1 → step s = .next t →
    ((∀ rest, s.pending ≠ .reset :: rest) →
      t.csr.status = 1#1 ∧ t.csr.fcode = s.csr.fcode ∧ t.csr.finfo = s.csr.finfo)
    ∧ (∀ rest, s.pending = .reset :: rest → t.csr.status = 0#1 ∧ t.csr.fcode = 0 ∧ t.csr.finfo = 0)

/-- 60_exceptions.md R205, with R200 to R204 and R214: what one issued command reports, in order of priority, for
every command, every state and every word; and the five other host actions never raise a fault. -/
def Obligations.CommandReportsFirstFault : Prop :=
  (∀ (s : State) (a : HostAction) (rest : List HostAction), s.pending = a :: rest → (∀ cw, a ≠ .command cw) →
    ∃ t, step s = .next t ∧ t.pending = rest ∧ (s.csr.status = 0#1 → t.csr.status = 0#1))
  ∧ ∀ (s : State) (cw : Word) (rest : List HostAction), s.pending = .command cw :: rest →
    (s.csr.status = 1#1 → step s = .next (s.advance rest))
    ∧ (s.csr.status = 0#1 → (∀ i, decode cw ≠ .ok i) → step s = .next (faultState (s.advance rest) 3 cw))
    ∧ ∀ i, s.csr.status = 0#1 → decode cw = .ok i →
        (∀ code info, faultsWith i (s.advance rest) code info →
          step s = .next (faultState (s.advance rest) code info))
        ∧ ((∀ code info, ¬ faultsWith i (s.advance rest) code info) →
            ∃ t, step s = .next t ∧ t.pending = rest ∧ t.csr.status = 0#1 ∧ t.csr.fcode = s.csr.fcode
              ∧ t.csr.finfo = s.csr.finfo)

/-- 60_exceptions.md R211: a faulting command changes no data space, no valid bit and no register other than
STATUS, FCODE and FINFO. -/
def Obligations.FaultingCommandChangesNothingElse : Prop :=
  ∀ (i : Instr) (s t : State), s.csr.status = 0#1 → exec i s = .next t → t.csr.status = 1#1 →
    t.mem = s.mem ∧ sameModelFields s t
    ∧ t.csr = { s.csr with status := 1#1, fcode := t.csr.fcode, finfo := t.csr.finfo }

/-! ### The unit commands -/

/-- CSC (40_color_subsample.md R101, R102): its two faults, and otherwise the three planes, the three valid bits
and nothing else. -/
def Obligations.CscConvertsEveryPixel : Prop :=
  ∀ s : State,
    (¬ geometryOk s → exec .csc s = .next (faultState s 1 (geometryInfo s)))
    ∧ (geometryOk s → s.csr.valid.getLsbD 0 = false → exec .csc s = .next (faultState s 4 0x0001))
    ∧ (geometryOk s → s.csr.valid.getLsbD 0 = true →
        ∃ t, exec .csc s = .next t ∧ holdsColourTransform s t
          ∧ changesOnly s t { s.csr with valid := s.csr.valid ||| 0x000E }
              fun sp i => sp ∈ [Space.py, .pcb, .pcr] ∧ i < imageHeight s * imageWidth s)

/-- SUB (40_color_subsample.md R105, R106, R107): for each of the two planes it takes; for the three others no word
decodes to it. -/
def Obligations.SubSumsEveryNeighbourhood : Prop :=
  (∀ pl ∈ [Plane.y, .scb, .scr], ∀ w, decode w ≠ .ok (.sub pl))
  ∧ ∀ (s : State) (pl : Plane) (src dst : Space) (sbit dbit : Nat),
    (pl, src, dst, sbit, dbit) ∈ [(Plane.cb, Space.pcb, Space.scb, 2, 4), (Plane.cr, Space.pcr, Space.scr, 3, 5)] →
    (¬ geometryOk s → exec (.sub pl) s = .next (faultState s 1 (geometryInfo s)))
    ∧ (geometryOk s → s.csr.valid.getLsbD sbit = false →
        exec (.sub pl) s = .next (faultState s 4 (1#32 <<< sbit)))
    ∧ (geometryOk s → s.csr.valid.getLsbD sbit = true →
        ∃ t, exec (.sub pl) s = .next t ∧ holdsSubsample s t src dst
          ∧ changesOnly s t { s.csr with valid := s.csr.valid ||| (1#13 <<< dbit) }
              fun sp i => sp = dst ∧ i < ((imageHeight s + 1) / 2) * ((imageWidth s + 1) / 2))

/-- BLKX (41_block_dct.md R121, R123): for every plane and every pair of offsets. -/
def Obligations.BlkxExtractsCentredBlock : Prop :=
  ∀ (s : State) (pl : Plane),
    (¬ geometryOk s → exec (.blkx pl) s = .next (faultState s 1 (geometryInfo s)))
    ∧ (geometryOk s → s.csr.valid.getLsbD (validBitOf pl) = false →
        exec (.blkx pl) s = .next (faultState s 4 (1#32 <<< validBitOf pl)))
    ∧ (geometryOk s → s.csr.valid.getLsbD (validBitOf pl) = true →
        ∃ t, exec (.blkx pl) s = .next t
          ∧ (∀ x < 8, ∀ y < 8,
              t.read .blk (8 * x + y) = blockSample s pl s.csr.offi.toNat s.csr.offj.toNat x y)
          ∧ changesOnly s t { s.csr with valid := s.csr.valid ||| 0x0040 } fun sp i => sp = .blk ∧ i < 64)

/-- DCT (41_block_dct.md R126, R127): the exact double sum, read back whole from COEF. -/
def Obligations.DctStoresExactDoubleSum : Prop :=
  ∀ s : State,
    (s.csr.valid.getLsbD 6 = false → exec .dct s = .next (faultState s 4 0x0040))
    ∧ (s.csr.valid.getLsbD 6 = true →
        ∃ t, exec .dct s = .next t
          ∧ (∀ p < 8, ∀ q < 8, t.read .coef (8 * p + q) = dctSum (s.read .blk) p q)
          ∧ changesOnly s t { s.csr with valid := s.csr.valid ||| 0x0080 } fun sp i => sp = .coef ∧ i < 64)

/-- QTBL (42_quantizer.md R144, R145): never a fault, and every entry at least 1 and at most 50 times its base. -/
def Obligations.QtblBuildsScaledTable : Prop :=
  ∀ (s : State) (kind : Kind),
    ∃ t, exec (.qtbl kind) s = .next t
      ∧ (∀ i < 64, t.read .qt i = scaledEntry s.cfg kind s.csr.quality.toInt (s.csr.ctrl.getLsbD 1) i
          ∧ 1 ≤ t.read .qt i
          ∧ t.read .qt i ≤ 50 * ((match kind with | .lum => s.cfg.baseLum | .chr => s.cfg.baseChr)[i]?.getD 0 : Nat))
      ∧ changesOnly s t { s.csr with valid := s.csr.valid ||| 0x0100 } fun sp i => sp = .qt ∧ i < 64

/-- QNT (42_quantizer.md R146, R147, R148): fresh and resident table, both faults, both rounding modes. -/
def Obligations.QntDividesByTable : Prop :=
  ∀ (s : State) (kind : Kind),
    (s.csr.valid.getLsbD 7 = false → exec (.qnt kind false) s = .next (faultState s 4 0x0080))
    ∧ (s.csr.valid.getLsbD 7 = true →
        ∃ t, exec (.qnt kind false) s = .next t
          ∧ (∀ i < 64, t.read .qt i = scaledEntry s.cfg kind s.csr.quality.toInt (s.csr.ctrl.getLsbD 1) i)
          ∧ (∀ k < 64, t.read .qc k
              = (BitVec.ofInt 16 (quotient (s.csr.ctrl.getLsbD 0) (s.read .coef k) (t.read .qt k))).toInt)
          ∧ changesOnly s t { s.csr with valid := s.csr.valid ||| 0x0300 }
              fun sp i => (sp = .qt ∨ sp = .qc) ∧ i < 64)
    ∧ (¬ (s.csr.valid.getLsbD 7 = true ∧ s.csr.valid.getLsbD 8 = true) →
        exec (.qnt kind true) s = .next (faultState s 4 ((0x0180 &&& ~~~ s.csr.valid).setWidth 32)))
    ∧ (s.csr.valid.getLsbD 7 = true → s.csr.valid.getLsbD 8 = true →
        ∀ i < 64, s.read .qt i = 0 → (∀ j < i, s.read .qt j ≠ 0) →
        exec (.qnt kind true) s = .next (faultState s 2 (BitVec.ofNat 32 i)))
    ∧ (s.csr.valid.getLsbD 7 = true → s.csr.valid.getLsbD 8 = true → (∀ i < 64, s.read .qt i ≠ 0) →
        ∃ t, exec (.qnt kind true) s = .next t
          ∧ (∀ k < 64, t.read .qc k
              = (BitVec.ofInt 16 (quotient (s.csr.ctrl.getLsbD 0) (s.read .coef k) (s.read .qt k))).toInt)
          ∧ changesOnly s t { s.csr with valid := s.csr.valid ||| 0x0200 } fun sp i => sp = .qc ∧ i < 64)

/-- 42_quantizer.md R146: with the resident table the `kind` operand is ignored. -/
def Obligations.ResidentQntIgnoresKind : Prop :=
  ∀ s : State, exec (.qnt .lum true) s = exec (.qnt .chr true) s

/-- ZZ (43_zigzag_rle.md R160, R161, R162). -/
def Obligations.ZzGathersThroughIndexTable : Prop :=
  ∀ s : State,
    (s.csr.valid.getLsbD 9 = false → exec .zz s = .next (faultState s 4 0x0200))
    ∧ (s.csr.valid.getLsbD 9 = true →
        ∃ t, exec .zz s = .next t
          ∧ (∀ i, (h : i < zigzagTable.length) → t.read .zz i = s.read .qc zigzagTable[i])
          ∧ changesOnly s t { s.csr with valid := s.csr.valid ||| 0x0400 } fun sp i => sp = .zz ∧ i < 64)

/-- RLE (43_zigzag_rle.md R164, R165): the maximal runs and the sentinel. -/
def Obligations.RleWritesMaximalRuns : Prop :=
  ∀ s : State,
    (s.csr.valid.getLsbD 10 = false → exec .rle s = .next (faultState s 4 0x0400))
    ∧ (s.csr.valid.getLsbD 10 = true →
        ∃ t, exec .rle s = .next t ∧ holdsTokensOf s t
          ∧ changesOnly s t { s.csr with valid := s.csr.valid ||| 0x0800, tokn := t.csr.tokn }
              fun sp i => sp = .tok ∧ i < t.csr.tokn.toNat)

/-! ### The composite commands -/

/-- BLOCK (44_pipeline.md R181, R182): its two faults, and otherwise the six spaces, each the unit's function of
the one before it, TOKN and the six valid bits. -/
def Obligations.BlockRunsUnitsThreeToSeven : Prop :=
  ∀ (s : State) (pl : Plane),
    (¬ geometryOk s → exec (.block pl) s = .next (faultState s 1 (geometryInfo s)))
    ∧ (geometryOk s → s.csr.valid.getLsbD (validBitOf pl) = false →
        exec (.block pl) s = .next (faultState s 4 (1#32 <<< validBitOf pl)))
    ∧ (geometryOk s → s.csr.valid.getLsbD (validBitOf pl) = true →
        ∃ t, exec (.block pl) s = .next t
          ∧ (∀ x < 8, ∀ y < 8,
              t.read .blk (8 * x + y) = blockSample s pl s.csr.offi.toNat s.csr.offj.toNat x y)
          ∧ (∀ p < 8, ∀ q < 8, t.read .coef (8 * p + q) = dctSum (t.read .blk) p q)
          ∧ (∀ i < 64, t.read .qt i = scaledEntry s.cfg (match pl with | .y => .lum | _ => .chr)
              s.csr.quality.toInt (s.csr.ctrl.getLsbD 1) i)
          ∧ (∀ k < 64, t.read .qc k = quotient (s.csr.ctrl.getLsbD 0) (t.read .coef k) (t.read .qt k))
          ∧ (∀ i, (h : i < zigzagTable.length) → t.read .zz i = t.read .qc zigzagTable[i])
          ∧ holdsTokensOf t t
          ∧ changesOnly s t { s.csr with valid := s.csr.valid ||| 0x0FC0, tokn := t.csr.tokn }
              fun sp i => (sp ∈ [Space.blk, .coef, .qt, .qc, .zz] ∧ i < 64)
                ∨ (sp = .tok ∧ i < t.csr.tokn.toNat))

/-- 44_pipeline.md R181: the end state of BLOCK is exactly that of `BLKX pl; DCT; QNT kindof(pl); ZZ; RLE` issued on
the same start state, every register and every space. -/
def Obligations.BlockEqualsUnitCommands : Prop :=
  ∀ (s : State) (pl : Plane), geometryOk s → s.csr.valid.getLsbD (validBitOf pl) = true →
    ∃ s1 s2 s3 s4 s5, exec (.blkx pl) s = .next s1 ∧ exec .dct s1 = .next s2
      ∧ exec (.qnt (match pl with | .y => .lum | _ => .chr) false) s2 = .next s3
      ∧ exec .zz s3 = .next s4 ∧ exec .rle s4 = .next s5 ∧ exec (.block pl) s = .next s5

/-- FRAME (44_pipeline.md R183): its two faults, and otherwise the five planes, the registers, and nothing outside
the planes, OUT up to OUTN and the six per-block spaces, whose contents are unspecified. What stands in OUT is
`FrameEqualsHostDrivenLoop`. -/
def Obligations.FrameWritesPlanesAndRegisters : Prop :=
  ∀ s : State,
    (¬ geometryOk s → exec .frame s = .next (faultState s 1 (geometryInfo s)))
    ∧ (geometryOk s → s.csr.valid.getLsbD 0 = false → exec .frame s = .next (faultState s 4 0x0001))
    ∧ (geometryOk s → s.csr.valid.getLsbD 0 = true →
        ∃ t, exec .frame s = .next t ∧ holdsColourTransform s t
          ∧ holdsSubsample t t .pcb .scb ∧ holdsSubsample t t .pcr .scr
          ∧ t.csr.pstart0 = 0
          ∧ changesOnly s t
              { s.csr with
                valid := (s.csr.valid ||| 0x103E) &&& 0x103F
                tokn := 0
                outn := t.csr.outn
                pstart0 := 0
                pstart1 := t.csr.pstart1
                pstart2 := t.csr.pstart2 }
              fun sp i => (sp ∈ [Space.py, .pcb, .pcr] ∧ i < imageHeight s * imageWidth s)
                ∨ (sp ∈ [Space.scb, .scr] ∧ i < ((imageHeight s + 1) / 2) * ((imageWidth s + 1) / 2))
                ∨ (sp = .out ∧ i < t.csr.outn.toNat)
                ∨ sp ∈ [Space.blk, .coef, .qt, .qc, .zz, .tok])

/-- 44_pipeline.md R185: the planes after FRAME are those of `CSC; SUB cb; SUB cr`, and OUT is the concatenation of
what the host reads from TOK when it runs BLOCK itself over every offset of `y`, `scb`, `scr`. -/
def Obligations.FrameEqualsHostDrivenLoop : Prop :=
  ∀ s : State, geometryOk s → s.csr.valid.getLsbD 0 = true →
    ∃ s1 s2 s3 t, exec .csc s = .next s1 ∧ exec (.sub .cb) s1 = .next s2 ∧ exec (.sub .cr) s2 = .next s3
      ∧ exec .frame s = .next t
      ∧ t.mem.py = s3.mem.py ∧ t.mem.pcb = s3.mem.pcb ∧ t.mem.pcr = s3.mem.pcr
      ∧ t.mem.scb = s3.mem.scb ∧ t.mem.scr = s3.mem.scr
      ∧ outWords t t.csr.outn.toNat
          = hostPlaneTokens s3 .y ++ hostPlaneTokens s3 .scb ++ hostPlaneTokens s3 .scr
      ∧ t.csr.pstart1.toNat = (hostPlaneTokens s3 .y).length
      ∧ t.csr.pstart2.toNat = (hostPlaneTokens s3 .y ++ hostPlaneTokens s3 .scb).length

/-- 44_pipeline.md R184: after FRAME the numbers of words lie between 2 and 65 for each block, OUT is not overflowed,
and each plane's range holds one zero word, the sentinel, for each of its blocks. -/
def Obligations.FrameOutputLayout : Prop :=
  ∀ s : State, geometryOk s → s.csr.valid.getLsbD 0 = true →
    ∃ t, exec .frame s = .next t
      ∧ t.csr.pstart0 = 0
      ∧ 2 * blockCount s .y ≤ t.csr.pstart1.toNat ∧ t.csr.pstart1.toNat ≤ 65 * blockCount s .y
      ∧ t.csr.pstart1.toNat + 2 * blockCount s .scb ≤ t.csr.pstart2.toNat
      ∧ t.csr.pstart2.toNat ≤ t.csr.pstart1.toNat + 65 * blockCount s .scb
      ∧ t.csr.pstart2.toNat + 2 * blockCount s .scr ≤ t.csr.outn.toNat
      ∧ t.csr.outn.toNat ≤ t.csr.pstart2.toNat + 65 * blockCount s .scr
      ∧ t.csr.outn.toNat ≤ outCap s.cfg
      ∧ ((outWords t t.csr.outn.toNat).take t.csr.pstart1.toNat).count 0 = blockCount s .y
      ∧ ((outWords t t.csr.pstart2.toNat).drop t.csr.pstart1.toNat).count 0 = blockCount s .scb
      ∧ ((outWords t t.csr.outn.toNat).drop t.csr.pstart2.toNat).count 0 = blockCount s .scr

/-! ### Laws of the units -/

/-- 40_color_subsample.md R103: the exact output ranges of the colour transform, the pixels at which each end is
reached, the value of a grey pixel, and that every output fits its element. -/
def Obligations.ColourTransformRanges : Prop :=
  (∀ r g b : Int, 0 ≤ r → r ≤ 255 → 0 ≤ g → g ≤ 255 → 0 ≤ b → b ≤ 255 →
    0 ≤ cscY r g b ∧ cscY r g b ≤ 255000000
    ∧ 500000 ≤ cscCb r g b ∧ cscCb r g b ≤ 255500000
    ∧ 500000 ≤ cscCr r g b ∧ cscCr r g b ≤ 255500000
    ∧ elemValue .py (elemBits .py (cscY r g b)) = cscY r g b
    ∧ elemValue .pcb (elemBits .pcb (cscCb r g b)) = cscCb r g b
    ∧ elemValue .pcr (elemBits .pcr (cscCr r g b)) = cscCr r g b)
  ∧ cscY 0 0 0 = 0 ∧ cscY 255 255 255 = 255000000
  ∧ cscCb 255 255 0 = 500000 ∧ cscCb 0 0 255 = 255500000
  ∧ cscCr 0 255 255 = 500000 ∧ cscCr 255 0 0 = 255500000
  ∧ ∀ v : Int, cscY v v v = 1000000 * v ∧ cscCb v v v = 128000000 ∧ cscCr v v v = 128000000

/-- 10_state.md R58 (a) to (f): no command computes a value outside the element that receives it, whatever the
spaces hold. -/
def Obligations.ResultsFitTheirElements : Prop :=
  ∀ s : State,
    (∀ src ∈ [Space.pcb, .pcr], ∀ r c,
      -(2 ^ 30) ≤ s.sub2x2 src r c ∧ s.sub2x2 src r c ≤ 2 ^ 30 - 4)
    ∧ (∀ pl i j k, -1585741824 ≤ s.blkx pl i j k ∧ s.blkx pl i j k ≤ 561741823)
    ∧ (∀ k < 64, |dct (s.read .blk) k| ≤ 2 ^ 125)
    ∧ (∀ kind quality c255, ∀ i < 64, 1 ≤ qtable s.cfg kind quality c255 i ∧ qtable s.cfg kind quality c255 i ≤ 12750)
    ∧ (∀ rnd t, 1 ≤ t → ∀ k < 64,
        -8591 ≤ quant rnd (dct (s.read .blk) k) t ∧ quant rnd (dct (s.read .blk) k) t ≤ 8591)

/-- 42_quantizer.md R143: the quality is clamped to 1..99 where it is read; below and above, the tables are those
of 1 and of 99. -/
def Obligations.QualityIsClampedToLegalRange : Prop :=
  ∀ (c : Config) (kind : Kind) (quality : Int) (c255 : Bool) (i : Nat),
    (quality ≤ 1 → qtable c kind quality c255 i = qtable c kind 1 c255 i)
    ∧ (99 ≤ quality → qtable c kind quality c255 i = qtable c kind 99 c255 i)

/-- 41_block_dct.md R128: the exact properties (a) to (e) of the transform. -/
def Obligations.DctExactProperties : Prop :=
  (∀ k < 64, dct (fun _ => 0) k = 0)
  ∧ (∀ n0 : Int, dct (fun _ => n0) 0 = n0 * 2 ^ 93 ∧ ∀ k < 64, 0 < k → dct (fun _ => n0) k = 0)
  ∧ (∀ b : Nat → Int, 8 * dct b 0 = 2 ^ 90 * ∑ k ∈ Finset.range 64, b k)
  ∧ (∀ (a b : Nat → Int) (c : Int), ∀ k < 64,
      dct (fun i => a i + b i) k = dct a k + dct b k ∧ dct (fun i => c * b i) k = c * dct b k)
  ∧ (∀ f : Nat → Int, ∀ p < 8, ∀ q < 8,
      (0 < q → dct (fun i => f (i / 8)) (8 * p + q) = 0) ∧ (0 < p → dct (fun i => f (i % 8)) (8 * p + q) = 0))

/-- 41_block_dct.md R130: a separable evaluation, rows then columns with nothing rounded, is bit-identical. -/
def Obligations.SeparableDctIsIdentical : Prop :=
  ∀ (b : Nat → Int), ∀ p < 8, ∀ q < 8,
    dct b (8 * p + q)
      = norm p q * ∑ m ∈ Finset.range 8,
          (∑ n ∈ Finset.range 8, b (8 * m + n) * cosine n q) * cosine m p

/-- 43_zigzag_rle.md R163: scattering through the same table restores the block. -/
def Obligations.ZigzagScatterRestoresBlock : Prop :=
  ∀ blk back : Nat → Int, (∀ i < 64, back (zzRom i) = zigzag blk i) → ∀ k < 64, back k = blk k

/-- 43_zigzag_rle.md R166: expanding the tokens, the sentinel left out, restores the sequence. -/
def Obligations.RleExpansionRestoresSequence : Prop :=
  ∀ zz : List Int, zz.length = 64 → expandRuns (rle zz).dropLast = zz

/-- 43_zigzag_rle.md R164, its properties: 2 to 65 tokens, the sentinel last and only there, run lengths in 1..64
that sum to 64, neighbours of different value. -/
def Obligations.RleTokenProperties : Prop :=
  ∀ zz : List Int, zz.length = 64 →
    2 ≤ (rle zz).length ∧ (rle zz).length ≤ 65
    ∧ (rle zz).getLast? = some (0, 0)
    ∧ (∀ t ∈ (rle zz).dropLast, 1 ≤ t.2 ∧ t.2 ≤ 64)
    ∧ ((rle zz).dropLast.map Prod.snd).sum = 64
    ∧ (rle zz).dropLast.IsChain fun a b => a.1 ≠ b.1

/-! ### Host actions -/

/-- 70_reset_and_hazards.md R230: HostReset, in any state, gives every register its reset value and leaves no element
of any space written; the parameters stay. The power-on state has the same registers and spaces. -/
def Obligations.HostResetRestoresRegisters : Prop :=
  ∀ (s : State) (rest : List HostAction), s.pending = .reset :: rest →
    ∃ t, step s = .next t ∧ t.csr = State.reset.csr
      ∧ (∀ n, registerValue t n = if n = 6 then 50 else 0)
      ∧ (∀ sp, t.mem.get sp = []) ∧ (∀ sp, State.reset.mem.get sp = []) ∧ t.cfg = s.cfg ∧ t.pending = rest

/-- 10_state.md R31: every host write to WIDTH or HEIGHT clears VALID bits 0 to 5 and 12; the spaces are not
altered, and the remaining host actions stay. -/
def Obligations.GeometryWriteInvalidatesPlanes : Prop :=
  ∀ (s : State) (v : Word) (rest : List HostAction),
    (s.pending = .writeCsr 4 v :: rest →
      ∃ t, step s = .next t ∧ t.csr = { s.csr with width := v, valid := s.csr.valid &&& 0x0FC0 } ∧ t.mem = s.mem
        ∧ t.cfg = s.cfg ∧ t.pending = rest)
    ∧ (s.pending = .writeCsr 5 v :: rest →
      ∃ t, step s = .next t ∧ t.csr = { s.csr with height := v, valid := s.csr.valid &&& 0x0FC0 } ∧ t.mem = s.mem
        ∧ t.cfg = s.cfg ∧ t.pending = rest)

/-- 10_state.md R21, R32, R38: what a register reads after a host write to register `n`: a read-write register the
written value without its reserved bits, a read-only or reserved number what it was; no other register changes but
VALID on a write to WIDTH or HEIGHT; no space changes; 15 and every number above read 0. -/
def Obligations.RegisterWriteReadsBack : Prop :=
  ∀ (s : State) (n : Nat) (v : Word) (rest : List HostAction), s.pending = .writeCsr n v :: rest →
    ∃ t, step s = .next t ∧ t.mem = s.mem ∧ t.cfg = s.cfg ∧ t.pending = rest
      ∧ registerValue t n = (if n = 0 then v &&& 0x3
          else if n = 9 then v &&& 0x1FFF
          else if n ∈ [4, 5, 6, 7, 8] then v
          else registerValue s n)
      ∧ (∀ m, m ≠ n → ¬ (m = 9 ∧ (n = 4 ∨ n = 5)) → registerValue t m = registerValue s m)
      ∧ ∀ m, 15 ≤ m → registerValue t m = 0

/-- 10_state.md R21: HostReadCsr answers the 32 bits of the register its number has in the table, 0 for a reserved
number, and changes nothing of the hardware. -/
def Obligations.RegisterReadHasNoSideEffect : Prop :=
  ∀ (s : State) (n : Nat) (rest : List HostAction), s.pending = .readCsr n :: rest →
    ∃ t, step s = .next t ∧ t.reply = some (.csr (registerValue s n)) ∧ t.csr = s.csr ∧ t.mem = s.mem
      ∧ t.cfg = s.cfg ∧ t.pending = rest

/-- 20_memory.md R62: a host write keeps the low bits the element has, changes no other element and no register, and
beyond the space is ignored. -/
def Obligations.HostWriteKeepsLowBits : Prop :=
  ∀ (s : State) (sp : Space) (i : Nat) (v : Int) (rest : List HostAction),
    s.pending = .writeMem sp i v :: rest →
    ∃ t, step s = .next t ∧ t.csr = s.csr ∧ t.cfg = s.cfg ∧ t.pending = rest
      ∧ (i < spaceSize s.cfg sp →
          ((t.elem sp i).toNat : Int) = v % 2 ^ sp.width
          ∧ unchangedOutside (s.advance rest) t fun sp' j => sp' = sp ∧ j = i)
      ∧ (spaceSize s.cfg sp ≤ i → t.mem = s.mem)

/-- 20_memory.md R63: a host read answers the element as its type gives, 0 beyond the space, whatever the valid
bits, and has no side effect; an element that holds bits `b` reads as `b` unsigned for PIX, QT, TOK and OUT and
sign-extended for the others. -/
def Obligations.HostReadAnswersByType : Prop :=
  ∀ (s : State) (sp : Space) (i : Nat) (rest : List HostAction),
    s.pending = .readMem sp i :: rest →
    ∃ t v, step s = .next t ∧ t.reply = some (.elem v) ∧ t.csr = s.csr ∧ t.mem = s.mem ∧ t.cfg = s.cfg
      ∧ t.pending = rest
      ∧ (spaceSize s.cfg sp ≤ i → v = 0)
      ∧ ∀ b, i < spaceSize s.cfg sp → cellsGet (s.mem.get sp) i = some b →
          v = if sp ∈ [Space.pix, .qt, .tok, .out] then (b.toNat : Int) else b.toInt

/-! ### The whole machine -/

/-- Every step, whatever host action it performs and from whatever good state, keeps the invariant: the memory in
canonical form inside the spaces, the fault record consistent, TOKN 0 or 2 to 65, the plane starts in order and
OUT not overflowed. -/
def Obligations.StepKeepsInvariant : Prop :=
  ∀ s t : State, s.Inv → step s = .next t → t.Inv

/-- The invariant holds right after reset (the parameters of `State.reset` are the model's choice, log entries 2
and 3; the invariant does not depend on them). -/
def Obligations.ResetSatisfiesInvariant : Prop := State.reset.Inv

/-- No action writes the parameters (00_scope.md R10, 70_reset_and_hazards.md R247). -/
def Obligations.ParametersNeverChange : Prop :=
  ∀ s t : State, step s = .next t → t.cfg = s.cfg

/-- 10_state.md R22, R26 to R31, R41: the registers the host alone writes, and PIX, are changed by no command. -/
def Obligations.CommandsKeepHostInputs : Prop :=
  ∀ (i : Instr) (s t : State), exec i s = .next t →
    t.csr.ctrl = s.csr.ctrl ∧ t.csr.width = s.csr.width ∧ t.csr.height = s.csr.height
    ∧ t.csr.quality = s.csr.quality ∧ t.csr.offi = s.csr.offi ∧ t.csr.offj = s.csr.offj
    ∧ t.mem.pix = s.mem.pix ∧ t.csr.valid.getLsbD 0 = s.csr.valid.getLsbD 0

/-- 10_state.md R33: a command never clears a valid bit except FRAME, which clears only bits 6 to 11. -/
def Obligations.OnlyFrameClearsValidBits : Prop :=
  ∀ (i : Instr) (s t : State), exec i s = .next t →
    (i ≠ .frame → s.csr.valid &&& t.csr.valid = s.csr.valid)
    ∧ (i = .frame → (s.csr.valid &&& t.csr.valid) &&& 0x103F = s.csr.valid &&& 0x103F)

/-- 20_memory.md R67: what the elements outside a plane's rows and columns hold has no effect on any result. Two
states that agree on what a command may read come out agreeing, and every element a command changes takes the
same value in both. -/
def Obligations.ElementsOutsidePlanesHaveNoEffect : Prop :=
  ∀ (i : Instr) (s s' t t' : State), agreeOnReadable s s' → exec i s = .next t → exec i s' = .next t' →
    agreeOnReadable t t' ∧ ∀ sp k, t.elem sp k = s.elem sp k ∨ t.elem sp k = t'.elem sp k

/-- 44_pipeline.md R191: a command's whole-space write is the element writes of its loop, in whatever order an
implementation visits the elements. -/
def Obligations.LoopOrderIsNotObservable : Prop :=
  ∀ (s : State) (sp : Space) (n : Nat) (f : Nat → Int) (order : List Nat),
    s.mem.wf s.cfg = true → order.Perm (List.range n) →
    order.foldl (fun u k => u.write sp k (f k)) s = s.fill sp n f

/-- 10_state.md R52, R53: every entry of the model's COSROM and NORM is the printed one, and COSROM has the two
properties R52 states of its literals. -/
def Obligations.RomTablesAreThePrintedOnes : Prop :=
  (∀ m < 8, ∀ p < 8, cosRom m p = cosine m p)
  ∧ (∀ p < 8, ∀ q < 8, normRom p q = norm p q)
  ∧ (∀ m < 8, ∀ p < 8, cosine (7 - m) p = (-1) ^ p * cosine m p)
  ∧ (∀ p < 8, 0 < p → ∑ m ∈ Finset.range 8, cosine m p = 0)
end

