-- ==== Sys2Proof/Laws/Cells.lean ====
section
/-! SUPPORT. The laws of one space's cells: what a read gives after a write, and that every operation keeps the
canonical form. -/

namespace Sys2Proof.Machine

variable {w : Nat}

/-! ### Read after write -/

@[simp] theorem cellsGet_nil (i : Nat) : cellsGet ([] : Cells w) i = none := rfl

theorem cellsGet_cons (k : Nat) (v : BitVec w) (c : Cells w) (i : Nat) :
    cellsGet ((k, v) :: c) i = if k = i then some v else cellsGet c i := rfl

theorem cellsGet_put_same (c : Cells w) (i : Nat) (v : BitVec w) : cellsGet (cellsPut c i v) i = some v := by
  induction c with
  | nil => simp [cellsPut, cellsGet]
  | cons e rest ih =>
    obtain ⟨k, u⟩ := e
    simp only [cellsPut]
    split
    · simp [cellsGet]
    · split
      · simp [cellsGet]
      · rename_i h
        simp [cellsGet, Ne.symm h, ih]

theorem cellsGet_put_ne (c : Cells w) {i j : Nat} (v : BitVec w) (h : j ≠ i) :
    cellsGet (cellsPut c i v) j = cellsGet c j := by
  induction c with
  | nil => simp [cellsPut, cellsGet, Ne.symm h]
  | cons e rest ih =>
    obtain ⟨k, u⟩ := e
    simp only [cellsPut]
    split
    · simp [cellsGet, Ne.symm h]
    · split
      · rename_i hk
        subst hk
        simp [cellsGet, Ne.symm h]
      · simp [cellsGet, ih]

theorem cellsGet_append (a b : Cells w) (i : Nat) :
    cellsGet (a ++ b) i = (cellsGet a i).or (cellsGet b i) := by
  induction a with
  | nil => simp
  | cons e rest ih =>
    obtain ⟨k, u⟩ := e
    simp only [List.cons_append, cellsGet_cons]
    split <;> simp [ih]

theorem cellsGet_from (k : Nat) (vs : List (BitVec w)) (i : Nat) :
    cellsGet (cellsFrom k vs) i = if k ≤ i then vs[i - k]? else none := by
  induction vs generalizing k with
  | nil => simp [cellsFrom]
  | cons v rest ih =>
    simp only [cellsFrom, cellsGet_cons, ih]
    by_cases hk : k = i
    · subst hk
      simp
    · by_cases hle : k ≤ i
      · have h1 : k + 1 ≤ i := by omega
        have h2 : i - k = (i - (k + 1)) + 1 := by omega
        simp [hk, hle, h1, h2]
      · have h1 : ¬ k + 1 ≤ i := by omega
        simp [hk, hle, h1]

theorem cellsGet_filter_ge (c : Cells w) {n i : Nat} (h : n ≤ i) :
    cellsGet (c.filter fun e => decide (n ≤ e.1)) i = cellsGet c i := by
  induction c with
  | nil => rfl
  | cons e rest ih =>
    obtain ⟨k, u⟩ := e
    by_cases hk : n ≤ k
    · simp [hk, cellsGet_cons, ih]
    · have hne : k ≠ i := by omega
      simp [hk, cellsGet_cons, hne, ih]

/-- What an element reads as after elements `0 .. len-1` have been written. -/
theorem cellsGet_fill (c : Cells w) (vs : List (BitVec w)) (i : Nat) :
    cellsGet (cellsFill c vs) i = if h : i < vs.length then some vs[i] else cellsGet c i := by
  rw [cellsFill, cellsGet_append, cellsGet_from]
  by_cases h : i < vs.length
  · simp [h]
  · have hle : vs.length ≤ i := by omega
    simp [h, cellsGet_filter_ge c hle]

/-! ### The canonical form -/

theorem cellsWf_iff (n : Nat) (c : Cells w) :
    cellsWf n c = true ↔ c.Pairwise (fun a b => a.1 < b.1) ∧ ∀ e ∈ c, e.1 < n := by
  induction c with
  | nil => simp [cellsWf]
  | cons e rest ih =>
    obtain ⟨i, u⟩ := e
    cases rest with
    | nil => simp [cellsWf]
    | cons e2 rest2 =>
      obtain ⟨j, v⟩ := e2
      simp only [cellsWf, Bool.and_eq_true, decide_eq_true_eq, ih]
      constructor
      · rintro ⟨hij, hp, hb⟩
        have hj : j < n := hb (j, v) (by simp)
        refine ⟨List.pairwise_cons.2 ⟨?_, hp⟩, ?_⟩
        · intro x hx
          rcases List.mem_cons.1 hx with rfl | hx
          · exact hij
          · exact lt_trans hij ((List.pairwise_cons.1 hp).1 x hx)
        · intro x hx
          rcases List.mem_cons.1 hx with rfl | hx
          · exact lt_trans hij hj
          · exact hb x hx
      · rintro ⟨hp, hb⟩
        have h := List.pairwise_cons.1 hp
        exact ⟨h.1 (j, v) (by simp), h.2, fun x hx => hb x (List.mem_cons_of_mem _ hx)⟩

theorem cellsWf_nil (n : Nat) : cellsWf n ([] : Cells w) = true := rfl

theorem mem_cellsPut {c : Cells w} {i : Nat} {v : BitVec w} {e : Nat × BitVec w}
    (h : e ∈ cellsPut c i v) : e = (i, v) ∨ e ∈ c := by
  induction c with
  | nil => simpa [cellsPut] using h
  | cons x rest ih =>
    obtain ⟨k, u⟩ := x
    simp only [cellsPut] at h
    split at h
    · simpa using h
    · split at h
      · rcases List.mem_cons.1 h with h | h
        · exact .inl h
        · exact .inr (List.mem_cons_of_mem _ h)
      · rcases List.mem_cons.1 h with h | h
        · exact .inr (by simp [h])
        · rcases ih h with h | h
          · exact .inl h
          · exact .inr (List.mem_cons_of_mem _ h)

theorem cellsPut_pairwise {c : Cells w} (i : Nat) (v : BitVec w) (h : c.Pairwise (fun a b => a.1 < b.1)) :
    (cellsPut c i v).Pairwise (fun a b => a.1 < b.1) := by
  induction c with
  | nil => simp [cellsPut]
  | cons x rest ih =>
    obtain ⟨k, u⟩ := x
    have hx := List.pairwise_cons.1 h
    simp only [cellsPut]
    split
    · rename_i hik
      refine List.pairwise_cons.2 ⟨?_, h⟩
      intro y hy
      rcases List.mem_cons.1 hy with rfl | hy
      · exact hik
      · exact lt_trans hik (hx.1 y hy)
    · split
      · rename_i hik
        refine List.pairwise_cons.2 ⟨?_, hx.2⟩
        intro y hy
        simpa [hik] using hx.1 y hy
      · refine List.pairwise_cons.2 ⟨?_, ih hx.2⟩
        intro y hy
        rcases mem_cellsPut hy with rfl | hy
        · show k < i
          omega
        · exact hx.1 y hy

theorem cellsWf_put {n : Nat} {c : Cells w} {i : Nat} (v : BitVec w) (h : cellsWf n c = true) (hi : i < n) :
    cellsWf n (cellsPut c i v) = true := by
  rw [cellsWf_iff] at h ⊢
  refine ⟨cellsPut_pairwise i v h.1, fun e he => ?_⟩
  rcases mem_cellsPut he with rfl | he
  · exact hi
  · exact h.2 e he

theorem cellsFrom_bounds {k : Nat} {vs : List (BitVec w)} {e : Nat × BitVec w} (h : e ∈ cellsFrom k vs) :
    k ≤ e.1 ∧ e.1 < k + vs.length := by
  induction vs generalizing k with
  | nil => simp [cellsFrom] at h
  | cons v rest ih =>
    rcases List.mem_cons.1 h with rfl | h
    · simp
    · have := ih h
      simp only [List.length_cons]
      omega

theorem cellsFrom_pairwise (k : Nat) (vs : List (BitVec w)) :
    (cellsFrom k vs).Pairwise (fun a b => a.1 < b.1) := by
  induction vs generalizing k with
  | nil => simp [cellsFrom]
  | cons v rest ih =>
    refine List.pairwise_cons.2 ⟨fun e he => ?_, ih (k + 1)⟩
    have := (cellsFrom_bounds he).1
    show k < e.1
    omega

theorem cellsWf_fill {n : Nat} {c : Cells w} {vs : List (BitVec w)} (h : cellsWf n c = true)
    (hn : vs.length ≤ n) : cellsWf n (cellsFill c vs) = true := by
  rw [cellsWf_iff] at h ⊢
  have hsub : List.Sublist (c.filter fun e => decide (vs.length ≤ e.1)) c := List.filter_sublist
  refine ⟨List.pairwise_append.2 ⟨cellsFrom_pairwise 0 vs, h.1.sublist hsub, ?_⟩, ?_⟩
  · intro a ha b hb
    have h1 := (cellsFrom_bounds ha).2
    have h2 : vs.length ≤ b.1 := by simpa using (List.mem_filter.1 hb).2
    omega
  · intro e he
    rcases List.mem_append.1 he with he | he
    · have := (cellsFrom_bounds he).2
      omega
    · exact h.2 e (hsub.subset he)

end Sys2Proof.Machine
end

