-- ==== Sys2Proof/Laws/State.lean ====
section
/-! SUPPORT. One lemma per field per update of State, true by `rfl`, so that no later proof unfolds a record
update. -/

namespace Sys2Proof.Machine

section Fields
variable (s : State)

/-! ### Writing one element -/
@[simp] theorem State.write_csr (sp : Space) (i : Nat) (v : Int) : (s.write sp i v).csr = s.csr := rfl
@[simp] theorem State.write_cfg (sp : Space) (i : Nat) (v : Int) : (s.write sp i v).cfg = s.cfg := rfl
@[simp] theorem State.write_pending (sp : Space) (i : Nat) (v : Int) : (s.write sp i v).pending = s.pending := rfl
@[simp] theorem State.write_reply (sp : Space) (i : Nat) (v : Int) : (s.write sp i v).reply = s.reply := rfl
@[simp] theorem State.write_draws (sp : Space) (i : Nat) (v : Int) : (s.write sp i v).draws = s.draws := rfl

/-! ### Filling a space -/
@[simp] theorem State.fillBits_csr (sp : Space) (vs : List (BitVec sp.width)) : (s.fillBits sp vs).csr = s.csr := rfl
@[simp] theorem State.fillBits_cfg (sp : Space) (vs : List (BitVec sp.width)) : (s.fillBits sp vs).cfg = s.cfg := rfl
@[simp] theorem State.fillBits_pending (sp : Space) (vs : List (BitVec sp.width)) :
    (s.fillBits sp vs).pending = s.pending := rfl
@[simp] theorem State.fillBits_reply (sp : Space) (vs : List (BitVec sp.width)) :
    (s.fillBits sp vs).reply = s.reply := rfl
@[simp] theorem State.fillBits_draws (sp : Space) (vs : List (BitVec sp.width)) :
    (s.fillBits sp vs).draws = s.draws := rfl

@[simp] theorem State.fill_csr (sp : Space) (n : Nat) (f : Nat → Int) : (s.fill sp n f).csr = s.csr := rfl
@[simp] theorem State.fill_cfg (sp : Space) (n : Nat) (f : Nat → Int) : (s.fill sp n f).cfg = s.cfg := rfl
@[simp] theorem State.fill_pending (sp : Space) (n : Nat) (f : Nat → Int) : (s.fill sp n f).pending = s.pending := rfl
@[simp] theorem State.fill_reply (sp : Space) (n : Nat) (f : Nat → Int) : (s.fill sp n f).reply = s.reply := rfl
@[simp] theorem State.fill_draws (sp : Space) (n : Nat) (f : Nat → Int) : (s.fill sp n f).draws = s.draws := rfl

@[simp] theorem State.fillPlane_csr (sp : Space) (h w : Nat) (f : Nat → Nat → Int) :
    (s.fillPlane sp h w f).csr = s.csr := rfl
@[simp] theorem State.fillPlane_cfg (sp : Space) (h w : Nat) (f : Nat → Nat → Int) :
    (s.fillPlane sp h w f).cfg = s.cfg := rfl
@[simp] theorem State.fillPlane_pending (sp : Space) (h w : Nat) (f : Nat → Nat → Int) :
    (s.fillPlane sp h w f).pending = s.pending := rfl
@[simp] theorem State.fillPlane_reply (sp : Space) (h w : Nat) (f : Nat → Nat → Int) :
    (s.fillPlane sp h w f).reply = s.reply := rfl
@[simp] theorem State.fillPlane_draws (sp : Space) (h w : Nat) (f : Nat → Nat → Int) :
    (s.fillPlane sp h w f).draws = s.draws := rfl

/-! ### VALID bits -/
@[simp] theorem State.setValid_csr (l : List Space) :
    (s.setValid l).csr = { s.csr with valid := s.csr.valid ||| validBits l } := rfl
@[simp] theorem State.setValid_mem (l : List Space) : (s.setValid l).mem = s.mem := rfl
@[simp] theorem State.setValid_cfg (l : List Space) : (s.setValid l).cfg = s.cfg := rfl
@[simp] theorem State.setValid_pending (l : List Space) : (s.setValid l).pending = s.pending := rfl
@[simp] theorem State.setValid_reply (l : List Space) : (s.setValid l).reply = s.reply := rfl
@[simp] theorem State.setValid_draws (l : List Space) : (s.setValid l).draws = s.draws := rfl

@[simp] theorem State.clearValid_csr (l : List Space) :
    (s.clearValid l).csr = { s.csr with valid := s.csr.valid &&& ~~~ validBits l } := rfl
@[simp] theorem State.clearValid_mem (l : List Space) : (s.clearValid l).mem = s.mem := rfl
@[simp] theorem State.clearValid_cfg (l : List Space) : (s.clearValid l).cfg = s.cfg := rfl
@[simp] theorem State.clearValid_pending (l : List Space) : (s.clearValid l).pending = s.pending := rfl
@[simp] theorem State.clearValid_reply (l : List Space) : (s.clearValid l).reply = s.reply := rfl
@[simp] theorem State.clearValid_draws (l : List Space) : (s.clearValid l).draws = s.draws := rfl

/-! ### Raising a fault -/
@[simp] theorem State.raise_csr (c : Cause) (info : Word) :
    (s.raise c info).csr = { s.csr with status := 1#1, fcode := causeCode c, finfo := info } := rfl
@[simp] theorem State.raise_mem (c : Cause) (info : Word) : (s.raise c info).mem = s.mem := rfl
@[simp] theorem State.raise_cfg (c : Cause) (info : Word) : (s.raise c info).cfg = s.cfg := rfl
@[simp] theorem State.raise_pending (c : Cause) (info : Word) : (s.raise c info).pending = s.pending := rfl
@[simp] theorem State.raise_reply (c : Cause) (info : Word) : (s.raise c info).reply = s.reply := rfl
@[simp] theorem State.raise_draws (c : Cause) (info : Word) : (s.raise c info).draws = s.draws := rfl

/-! ### Reset and the host's next action -/
@[simp] theorem hostReset_csr : (hostReset s).csr = Csrs.reset := rfl
@[simp] theorem hostReset_mem : (hostReset s).mem = Memory.unspecified := rfl
@[simp] theorem hostReset_cfg : (hostReset s).cfg = s.cfg := rfl
@[simp] theorem hostReset_pending : (hostReset s).pending = s.pending := rfl
@[simp] theorem hostReset_reply : (hostReset s).reply = s.reply := rfl
@[simp] theorem hostReset_draws : (hostReset s).draws = s.draws := rfl

@[simp] theorem State.advance_csr (rest : List HostAction) : (s.advance rest).csr = s.csr := rfl
@[simp] theorem State.advance_mem (rest : List HostAction) : (s.advance rest).mem = s.mem := rfl
@[simp] theorem State.advance_cfg (rest : List HostAction) : (s.advance rest).cfg = s.cfg := rfl
@[simp] theorem State.advance_pending (rest : List HostAction) : (s.advance rest).pending = rest := rfl
@[simp] theorem State.advance_reply (rest : List HostAction) : (s.advance rest).reply = none := rfl
@[simp] theorem State.advance_draws (rest : List HostAction) : (s.advance rest).draws = s.draws + 1 := rfl

/-! ### Tokens and output -/
@[simp] theorem State.loadTokens_csr (ts : List (Int × Nat)) :
    (s.loadTokens ts).csr = { s.csr with tokn := BitVec.ofNat 32 ts.length } := rfl
@[simp] theorem State.loadTokens_mem (ts : List (Int × Nat)) :
    (s.loadTokens ts).mem = (s.fillBits .tok (ts.map tokWord)).mem := rfl
@[simp] theorem State.loadTokens_cfg (ts : List (Int × Nat)) : (s.loadTokens ts).cfg = s.cfg := rfl
@[simp] theorem State.loadTokens_pending (ts : List (Int × Nat)) : (s.loadTokens ts).pending = s.pending := rfl
@[simp] theorem State.loadTokens_reply (ts : List (Int × Nat)) : (s.loadTokens ts).reply = s.reply := rfl
@[simp] theorem State.loadTokens_draws (ts : List (Int × Nat)) : (s.loadTokens ts).draws = s.draws := rfl

/-! ### Contents becoming unspecified -/

@[simp] theorem State.forget_nil : s.forget [] = s := rfl
@[simp] theorem State.forget_csr (l : List Space) : (s.forget l).csr = s.csr := by
  induction l generalizing s with
  | nil => rfl
  | cons sp rest ih => exact ih _
@[simp] theorem State.forget_cfg (l : List Space) : (s.forget l).cfg = s.cfg := by
  induction l generalizing s with
  | nil => rfl
  | cons sp rest ih => exact ih _
@[simp] theorem State.forget_pending (l : List Space) : (s.forget l).pending = s.pending := by
  induction l generalizing s with
  | nil => rfl
  | cons sp rest ih => exact ih _
@[simp] theorem State.forget_reply (l : List Space) : (s.forget l).reply = s.reply := by
  induction l generalizing s with
  | nil => rfl
  | cons sp rest ih => exact ih _
@[simp] theorem State.forget_draws (l : List Space) : (s.forget l).draws = s.draws := by
  induction l generalizing s with
  | nil => rfl
  | cons sp rest ih => exact ih _

end Fields

/-! ### The operands depend on the control registers and the configuration alone -/

section Operands
variable {s t : State}

theorem State.imgW_congr (h : s.csr = t.csr) : s.imgW = t.imgW := by simp [State.imgW, State.widthReg, h]
theorem State.imgH_congr (h : s.csr = t.csr) : s.imgH = t.imgH := by simp [State.imgH, State.heightReg, h]
theorem State.rows_congr (h : s.csr = t.csr) (pl : Plane) : s.rows pl = t.rows pl := by
  cases pl <;> simp [State.rows, State.imgH_congr h]
theorem State.cols_congr (h : s.csr = t.csr) (pl : Plane) : s.cols pl = t.cols pl := by
  cases pl <;> simp [State.cols, State.imgW_congr h]
theorem State.freshTable_congr (h : s.csr = t.csr) (hc : s.cfg = t.cfg) (kind : Kind) :
    s.freshTable kind = t.freshTable kind := by
  simp [State.freshTable, State.qualityReg, State.c255, h, hc]
theorem State.rnd_congr (h : s.csr = t.csr) : s.rnd = t.rnd := by simp [State.rnd, h]
theorem State.geomLegal_congr (h : s.csr = t.csr) (hc : s.cfg = t.cfg) : s.geomLegal ↔ t.geomLegal := by
  simp [State.geomLegal, State.widthLegal, State.heightLegal, State.widthReg, State.heightReg, h, hc]

end Operands

end Sys2Proof.Machine
end

