-- ==== Sys2Proof/Laws/Memory.lean ====
section
/-! SUPPORT. The laws of the data spaces: one lemma for each shared operation of Machine/Ops.lean saying what every
element reads as afterwards, and that it keeps the canonical form. -/

namespace Sys2Proof.Machine

/-! ### Getting and setting a space -/

@[simp] theorem Memory.get_set_same (m : Memory) (sp : Space) (c : Cells sp.width) : (m.set sp c).get sp = c := by
  cases sp <;> rfl

theorem Memory.get_set_ne (m : Memory) {sp sp' : Space} (c : Cells sp.width) (h : sp' ≠ sp) :
    (m.set sp c).get sp' = m.get sp' := by
  cases sp <;> cases sp' <;> first | rfl | exact absurd rfl h

theorem Memory.wf_iff (c : Config) (m : Memory) :
    m.wf c = true ↔ ∀ sp, cellsWf (spaceSize c sp) (m.get sp) = true := by
  constructor
  · intro h sp
    have := List.all_eq_true.1 h sp (by cases sp <;> simp [allSpaces])
    simpa using this
  · intro h
    exact List.all_eq_true.2 fun sp _ => h sp

theorem Memory.wf_set {c : Config} {m : Memory} {sp : Space} {cs : Cells sp.width} (h : m.wf c = true)
    (hc : cellsWf (spaceSize c sp) cs = true) : (m.set sp cs).wf c = true := by
  rw [Memory.wf_iff] at h ⊢
  intro sp'
  by_cases hsp : sp' = sp
  · subst hsp
    simpa using hc
  · rw [Memory.get_set_ne m cs hsp]
    exact h sp'

@[simp] theorem Memory.get_unspecified (sp : Space) : Memory.unspecified.get sp = [] := by
  cases sp <;> rfl

theorem Memory.wf_unspecified (c : Config) : Memory.unspecified.wf c = true := by
  rw [Memory.wf_iff]
  intro sp
  simp [cellsWf]

theorem Memory.reset_wf : State.reset.mem.wf State.reset.cfg = true := Memory.wf_unspecified _

/-! ### An element as the integer of its type -/

/-- The integers an element of a space can hold (10_state.md R41 to R49). -/
def elemFits (sp : Space) (v : Int) : Prop :=
  if spaceSigned sp then -(2 ^ (sp.width - 1) : Nat) ≤ v ∧ v < (2 ^ (sp.width - 1) : Nat)
  else 0 ≤ v ∧ v < (2 ^ sp.width : Nat)

theorem elemValue_fits (sp : Space) (b : BitVec sp.width) : elemFits sp (elemValue sp b) := by
  unfold elemFits elemValue
  split
  · have h1 := BitVec.le_two_mul_toInt (x := b)
    have h2 := BitVec.two_mul_toInt_lt (x := b)
    have hw : ((2 ^ sp.width : Nat) : Int) = 2 * (2 ^ (sp.width - 1) : Nat) := by cases sp <;> rfl
    push_cast at hw h1 h2 ⊢
    omega
  · exact ⟨by omega, by exact_mod_cast b.isLt⟩

/-- Storing a value that fits and reading it back gives the value. -/
theorem elemValue_elemBits {sp : Space} {v : Int} (h : elemFits sp v) : elemValue sp (elemBits sp v) = v := by
  unfold elemFits at h
  unfold elemValue elemBits
  split at h <;> rename_i hs
  · rw [if_pos hs, BitVec.toInt_ofInt]
    have hw : ((2 ^ sp.width : Nat) : Int) = 2 * (2 ^ (sp.width - 1) : Nat) := by cases sp <;> rfl
    apply Int.bmod_eq_of_le <;> omega
  · rw [if_neg hs, BitVec.toNat_ofInt]
    rw [Int.emod_eq_of_lt h.1 h.2]
    omega

@[simp] theorem elemBits_elemValue (sp : Space) (b : BitVec sp.width) : elemBits sp (elemValue sp b) = b := by
  unfold elemValue elemBits
  split <;> simp

/-! ### What an element reads as after an operation -/

section Elem
variable (s : State)

theorem State.elem_congr {s t : State} {sp : Space} (hm : s.mem.get sp = t.mem.get sp) (hd : s.draws = t.draws)
    (i : Nat) : s.elem sp i = t.elem sp i := by
  simp [State.elem, hm, hd]

theorem State.elem_write_same (sp : Space) (i : Nat) (v : Int) : (s.write sp i v).elem sp i = elemBits sp v := by
  simp [State.elem, State.write, cellsGet_put_same]

theorem State.elem_write_ne {sp sp' : Space} {i j : Nat} (v : Int) (h : ¬ (sp' = sp ∧ j = i)) :
    (s.write sp i v).elem sp' j = s.elem sp' j := by
  by_cases hsp : sp' = sp
  · subst hsp
    have hj : j ≠ i := fun e => h ⟨rfl, e⟩
    simp [State.elem, State.write, cellsGet_put_ne _ _ hj]
  · simp [State.elem, State.write, Memory.get_set_ne _ _ hsp]

theorem State.elem_fillBits_lt {sp : Space} {vs : List (BitVec sp.width)} {i : Nat} (h : i < vs.length) :
    (s.fillBits sp vs).elem sp i = vs[i] := by
  simp [State.elem, State.fillBits, cellsGet_fill, h]

theorem State.elem_fillBits_ge {sp : Space} {vs : List (BitVec sp.width)} {i : Nat} (h : vs.length ≤ i) :
    (s.fillBits sp vs).elem sp i = s.elem sp i := by
  have : ¬ i < vs.length := by omega
  simp [State.elem, State.fillBits, cellsGet_fill, this]

theorem State.elem_fillBits_ne {sp sp' : Space} (vs : List (BitVec sp.width)) (i : Nat) (h : sp' ≠ sp) :
    (s.fillBits sp vs).elem sp' i = s.elem sp' i :=
  State.elem_congr (s := s.fillBits sp vs) (t := s) (Memory.get_set_ne _ _ h) rfl i

theorem State.elem_fill_lt {sp : Space} {n : Nat} (f : Nat → Int) {i : Nat} (h : i < n) :
    (s.fill sp n f).elem sp i = elemBits sp (f i) := by
  rw [State.fill, State.elem_fillBits_lt s (by simpa using h)]
  simp

theorem State.elem_fill_ge {sp : Space} {n : Nat} (f : Nat → Int) {i : Nat} (h : n ≤ i) :
    (s.fill sp n f).elem sp i = s.elem sp i :=
  State.elem_fillBits_ge s (by simpa using h)

theorem State.elem_fill_ne {sp sp' : Space} (n : Nat) (f : Nat → Int) (i : Nat) (h : sp' ≠ sp) :
    (s.fill sp n f).elem sp' i = s.elem sp' i :=
  State.elem_fillBits_ne s _ i h

/-- An element written by a fill reads back as the value, where the value fits. -/
theorem State.read_fill_lt {sp : Space} {n : Nat} {f : Nat → Int} {i : Nat} (h : i < n) (hf : elemFits sp (f i)) :
    (s.fill sp n f).read sp i = f i := by
  rw [State.read, State.elem_fill_lt s f h, elemValue_elemBits hf]

theorem State.elem_fillPlane_lt {sp : Space} {h w : Nat} (f : Nat → Nat → Int) {r c : Nat} (hr : r < h)
    (hc : c < w) : (s.fillPlane sp h w f).elem sp (r * w + c) = elemBits sp (f r c) := by
  have hlt : r * w + c < h * w := by
    calc r * w + c < r * w + w := by omega
      _ = (r + 1) * w := by ring
      _ ≤ h * w := Nat.mul_le_mul_right w hr
  have hdiv : (r * w + c) / w = r := by
    rw [Nat.mul_comm, Nat.mul_add_div (by omega), Nat.div_eq_of_lt hc, Nat.add_zero]
  have hmod : (r * w + c) % w = c := by
    rw [Nat.mul_comm, Nat.mul_add_mod, Nat.mod_eq_of_lt hc]
  rw [State.fillPlane, State.elem_fill_lt s _ hlt, hdiv, hmod]

theorem State.elem_fillPlane_ge {sp : Space} {h w : Nat} (f : Nat → Nat → Int) {i : Nat} (hi : h * w ≤ i) :
    (s.fillPlane sp h w f).elem sp i = s.elem sp i :=
  State.elem_fill_ge s _ hi

theorem State.elem_fillPlane_ne {sp sp' : Space} (h w : Nat) (f : Nat → Nat → Int) (i : Nat) (hsp : sp' ≠ sp) :
    (s.fillPlane sp h w f).elem sp' i = s.elem sp' i :=
  State.elem_fill_ne s _ _ i hsp

theorem State.get_forget_ne {l : List Space} {sp : Space} (h : sp ∉ l) :
    (s.forget l).mem.get sp = s.mem.get sp := by
  induction l generalizing s with
  | nil => rfl
  | cons x rest ih =>
    simp only [List.mem_cons, not_or] at h
    simp only [State.forget]
    rw [ih _ h.2]
    exact Memory.get_set_ne _ _ h.1

theorem State.elem_forget_ne {l : List Space} {sp : Space} (i : Nat) (h : sp ∉ l) :
    (s.forget l).elem sp i = s.elem sp i :=
  State.elem_congr (State.get_forget_ne s h) (State.forget_draws s l) i

@[simp] theorem State.elem_setValid (l : List Space) (sp : Space) (i : Nat) :
    (s.setValid l).elem sp i = s.elem sp i := rfl
@[simp] theorem State.elem_clearValid (l : List Space) (sp : Space) (i : Nat) :
    (s.clearValid l).elem sp i = s.elem sp i := rfl
@[simp] theorem State.elem_raise (c : Cause) (info : Word) (sp : Space) (i : Nat) :
    (s.raise c info).elem sp i = s.elem sp i := rfl
@[simp] theorem State.elem_loadTokens (ts : List (Int × Nat)) (sp : Space) (i : Nat) :
    (s.loadTokens ts).elem sp i = (s.fillBits .tok (ts.map tokWord)).elem sp i := rfl
@[simp] theorem State.elem_csr (c : Csrs) (sp : Space) (i : Nat) :
    ({ s with csr := c } : State).elem sp i = s.elem sp i := rfl

end Elem

/-! ### Every operation keeps the canonical form -/

section Wf
variable {s : State}

theorem State.write_wf {sp : Space} {i : Nat} (v : Int) (h : s.mem.wf s.cfg = true) (hi : i < spaceSize s.cfg sp) :
    (s.write sp i v).mem.wf s.cfg = true :=
  Memory.wf_set h (cellsWf_put _ ((Memory.wf_iff _ _).1 h sp) hi)

theorem State.fillBits_wf {sp : Space} {vs : List (BitVec sp.width)} (h : s.mem.wf s.cfg = true)
    (hn : vs.length ≤ spaceSize s.cfg sp) : (s.fillBits sp vs).mem.wf s.cfg = true :=
  Memory.wf_set h (cellsWf_fill ((Memory.wf_iff _ _).1 h sp) hn)

theorem State.fill_wf {sp : Space} {n : Nat} (f : Nat → Int) (h : s.mem.wf s.cfg = true)
    (hn : n ≤ spaceSize s.cfg sp) : (s.fill sp n f).mem.wf s.cfg = true :=
  State.fillBits_wf h (by simpa using hn)

theorem State.fillPlane_wf {sp : Space} {r c : Nat} (f : Nat → Nat → Int) (h : s.mem.wf s.cfg = true)
    (hn : r * c ≤ spaceSize s.cfg sp) : (s.fillPlane sp r c f).mem.wf s.cfg = true :=
  State.fill_wf _ h hn

theorem State.forget_wf (l : List Space) (h : s.mem.wf s.cfg = true) : (s.forget l).mem.wf s.cfg = true := by
  induction l generalizing s with
  | nil => exact h
  | cons sp rest ih =>
    exact ih (s := { s with mem := s.mem.set sp [] }) (Memory.wf_set h (cellsWf_nil _))

theorem hostWriteMem_wf (sp : Space) (i : Nat) (v : Int) (h : s.mem.wf s.cfg = true) :
    (hostWriteMem s sp i v).mem.wf s.cfg = true := by
  unfold hostWriteMem
  split
  · rename_i hi
    exact State.write_wf v h hi
  · exact h

end Wf

/-! ### What a check can do -/

theorem State.checkGeometry_cases (s : State) (run : State → State) :
    (s.geomLegal ∧ s.checkGeometry run = run s)
      ∨ (¬ s.geomLegal ∧ s.checkGeometry run = s.raise .invalidInput s.geomInfo) := by
  unfold State.checkGeometry
  by_cases h : s.geomLegal
  · exact .inl ⟨h, if_pos h⟩
  · exact .inr ⟨h, if_neg h⟩

theorem State.checkValid_cases (s : State) (need : List Space) (run : State → State) :
    (s.missing need = 0 ∧ s.checkValid need run = run s)
      ∨ (s.missing need ≠ 0 ∧ s.checkValid need run = s.raise .notReady ((s.missing need).setWidth 32)) := by
  unfold State.checkValid
  by_cases h : s.missing need = 0
  · exact .inl ⟨h, if_pos h⟩
  · exact .inr ⟨h, if_neg h⟩

theorem vbit_lt (sp : Space) : vbit sp < 13 := by cases sp <;> decide

/-- A command that needs one space finds nothing missing exactly when the space's VALID bit is 1. -/
theorem State.missing_one (s : State) (sp : Space) : s.missing [sp] = 0 ↔ s.isValid sp = true := by
  have hlt := vbit_lt sp
  simp only [State.missing, validBits, State.isValid]
  generalize vbit sp = k at hlt ⊢
  generalize s.csr.valid = v
  constructor
  · intro h
    have := congrArg (fun x => x.getLsbD k) h
    simpa [hlt] using this
  · intro h
    apply BitVec.eq_of_getLsbD_eq
    intro i hi
    by_cases hik : i = k
    · subst hik
      simp [h]
    · have : ¬ (k ≤ i ∧ i - k = 0) := by omega
      simp [hi]
      omega

end Sys2Proof.Machine
end

