-- ==== Sys2Proof/Laws/PerInstr.lean ====
section
/-! SUPPORT. The family RoundTrip: what decoding gives back for the word of each command, one lemma per
constructor of `Instr`. -/

namespace Sys2Proof.Laws

/-- The encoder's word of a well-formed command decodes to that command. -/
def RoundTrip.Statement (i : Instr) : Prop := i.wf = true → decode (encode i) = .ok i

theorem RoundTrip.csc : RoundTrip.Statement .csc := by intro _; decide

theorem RoundTrip.sub (pl : Plane) : RoundTrip.Statement (.sub pl) := by
  cases pl <;> (intro h; revert h; decide)

theorem RoundTrip.blkx (pl : Plane) : RoundTrip.Statement (.blkx pl) := by
  cases pl <;> (intro _; decide)

theorem RoundTrip.dct : RoundTrip.Statement .dct := by intro _; decide

theorem RoundTrip.qtbl (kind : Kind) : RoundTrip.Statement (.qtbl kind) := by
  cases kind <;> (intro _; decide)

theorem RoundTrip.qnt (kind : Kind) (res : Bool) : RoundTrip.Statement (.qnt kind res) := by
  cases kind <;> cases res <;> (intro _; decide)

theorem RoundTrip.zz : RoundTrip.Statement .zz := by intro _; decide

theorem RoundTrip.rle : RoundTrip.Statement .rle := by intro _; decide

theorem RoundTrip.block (pl : Plane) : RoundTrip.Statement (.block pl) := by
  cases pl <;> (intro _; decide)

theorem RoundTrip.frame : RoundTrip.Statement .frame := by intro _; decide

end Sys2Proof.Laws
end

