-- ==== Sys2Proof/Laws/Ranges.lean ====
section
/-! SUPPORT. What each unit computes fits the element that receives it (10_state.md R58), and each unit reads only the
64 values of its block: the facts with which a written space is read back as the exact value. -/

namespace Sys2Proof.Machine

/-! ### Reads -/

theorem State.read_fits (s : State) (sp : Space) (i : Nat) : elemFits sp (s.read sp i) := elemValue_fits sp _

theorem State.read_fill_ne (s : State) {sp sp' : Space} (n : Nat) (f : Nat → Int) (i : Nat) (h : sp' ≠ sp) :
    (s.fill sp n f).read sp' i = s.read sp' i := by
  simp only [State.read, State.elem_fill_ne s n f i h]

theorem State.fill_congr (s : State) (sp : Space) (n : Nat) {f g : Nat → Int} (h : ∀ k < n, f k = g k) :
    s.fill sp n f = s.fill sp n g := by
  have : (List.range n).map (fun k => elemBits sp (f k)) = (List.range n).map fun k => elemBits sp (g k) :=
    List.map_congr_left fun k hk => by rw [h k (List.mem_range.1 hk)]
  rw [State.fill, this, State.fill]

theorem list64_congr {f g : Nat → Int} (h : ∀ k < 64, f k = g k) : list64 f = list64 g :=
  List.map_congr_left fun k hk => h k (List.mem_range.1 hk)

/-! ### Tables -/

theorem cosRom_bound (m p : Nat) : |cosRom m p| ≤ 2 ^ 30 := by
  by_cases hm : m < 8
  · by_cases hp : p < 8
    · exact (by decide : ∀ m < 8, ∀ p < 8, |cosRom m p| ≤ 2 ^ 30) m hm p hp
    · have : cosRom m p = 0 := by
        obtain ⟨q, rfl⟩ := Nat.exists_eq_add_of_le (Nat.not_lt.1 hp)
        interval_cases m <;> simp [cosRom, cosRomTop, cosRomBottom]
      simp [this]
  · have : cosRom m p = 0 := by
      obtain ⟨q, rfl⟩ := Nat.exists_eq_add_of_le (Nat.not_lt.1 hm)
      simp [cosRom, cosRomTop, cosRomBottom]
    simp [this]

theorem normRom_bound (p q : Nat) : 0 ≤ normRom p q ∧ normRom p q ≤ 2 ^ 28 := by
  unfold normRom
  split_ifs <;> norm_num

theorem zzRom_lt {i : Nat} (h : i < 64) : zzRom i < 64 := (by decide : ∀ i < 64, zzRom i < 64) i h

theorem baseEntry_range (c : Config) (kind : Kind) {i : Nat} (hi : i < 64) :
    1 ≤ baseEntry c kind i ∧ baseEntry c kind i ≤ 255 := by
  cases kind with
  | lum =>
    have hlt : i < c.baseLum.length := by rw [c.baseLum_legal.1]; exact hi
    have := c.baseLum_legal.2 _ (List.getElem_mem hlt)
    simp [baseEntry, hlt]
    omega
  | chr =>
    have hlt : i < c.baseChr.length := by rw [c.baseChr_legal.1]; exact hi
    have := c.baseChr_legal.2 _ (List.getElem_mem hlt)
    simp [baseEntry, hlt]
    omega

/-! ### Colour transform and subsampler -/

theorem pixelR_range (px : BitVec 24) : 0 ≤ pixelR px ∧ pixelR px ≤ 255 := by unfold pixelR; omega
theorem pixelG_range (px : BitVec 24) : 0 ≤ pixelG px ∧ pixelG px ≤ 255 := by unfold pixelG; omega
theorem pixelB_range (px : BitVec 24) : 0 ≤ pixelB px ∧ pixelB px ≤ 255 := by unfold pixelB; omega

theorem State.convertPixel_fits (s : State) (r c : Nat) :
    elemFits .py (s.convertPixel cscY r c) ∧ elemFits .pcb (s.convertPixel cscCb r c)
      ∧ elemFits .pcr (s.convertPixel cscCr r c) := by
  simp only [State.convertPixel]
  have hr := pixelR_range (s.elem .pix (r * s.imgW + c))
  have hg := pixelG_range (s.elem .pix (r * s.imgW + c))
  have hb := pixelB_range (s.elem .pix (r * s.imgW + c))
  generalize pixelR (s.elem .pix (r * s.imgW + c)) = R at *
  generalize pixelG (s.elem .pix (r * s.imgW + c)) = G at *
  generalize pixelB (s.elem .pix (r * s.imgW + c)) = B at *
  simp [elemFits, spaceSigned, cscY, cscCb, cscCr]
  omega

theorem State.sampleOrZero_bound (s : State) {src : Space} (h : src = .pcb ∨ src = .pcr) (r c : Nat) :
    -(2 ^ 28) ≤ s.sampleOrZero src r c ∧ s.sampleOrZero src r c ≤ 2 ^ 28 - 1 := by
  have hf := s.read_fits src (r * s.imgW + c)
  unfold State.sampleOrZero
  split
  · rcases h with rfl | rfl <;> simp [elemFits, spaceSigned] at * <;> omega
  · omega

theorem State.sub2x2_fits (s : State) {src : Space} (h : src = .pcb ∨ src = .pcr) (r c : Nat) :
    elemFits .scb (s.sub2x2 src r c) ∧ elemFits .scr (s.sub2x2 src r c) := by
  have a := s.sampleOrZero_bound h (2 * r) (2 * c)
  have b := s.sampleOrZero_bound h (2 * r) (2 * c + 1)
  have c' := s.sampleOrZero_bound h (2 * r + 1) (2 * c)
  have d := s.sampleOrZero_bound h (2 * r + 1) (2 * c + 1)
  simp [elemFits, spaceSigned, State.sub2x2]
  omega

/-! ### Block extractor and transform -/

theorem State.blkx_fits (s : State) (pl : Plane) (i j k : Nat) : elemFits .blk (s.blkx pl i j k) := by
  have h := s.read_fits (planeSpace pl) ((i + k / 8) * s.cols pl + (j + k % 8))
  simp only [State.blkx]
  split
  · cases pl <;> simp [elemFits, spaceSigned, planeSpace, planeScale] at * <;> omega
  · simp [elemFits, spaceSigned]

theorem sum8_bound {f : Nat → Int} {B : Int} (h : ∀ m < 8, |f m| ≤ B) : |sum8 f| ≤ 8 * B := by
  have h0 := abs_le.1 (h 0 (by omega))
  have h1 := abs_le.1 (h 1 (by omega))
  have h2 := abs_le.1 (h 2 (by omega))
  have h3 := abs_le.1 (h 3 (by omega))
  have h4 := abs_le.1 (h 4 (by omega))
  have h5 := abs_le.1 (h 5 (by omega))
  have h6 := abs_le.1 (h 6 (by omega))
  have h7 := abs_le.1 (h 7 (by omega))
  unfold sum8
  rw [abs_le]
  omega

theorem sum8_congr {f g : Nat → Int} (h : ∀ m < 8, f m = g m) : sum8 f = sum8 g := by
  unfold sum8
  rw [h 0 (by omega), h 1 (by omega), h 2 (by omega), h 3 (by omega), h 4 (by omega), h 5 (by omega),
    h 6 (by omega), h 7 (by omega)]

/-- The eight-term sum as a finite sum. -/
theorem sum8_eq_sum (f : Nat → Int) : sum8 f = ∑ m ∈ Finset.range 8, f m := by
  simp [sum8, Finset.sum_range_succ]

theorem dct_congr {f g : Nat → Int} (h : ∀ k < 64, f k = g k) (k : Nat) : dct f k = dct g k := by
  unfold dct
  congr 1
  refine sum8_congr fun m hm => sum8_congr fun n hn => ?_
  rw [h (8 * m + n) (by omega)]

theorem elemFits_blk_abs {v : Int} (h : elemFits .blk v) : |v| ≤ 2 ^ 31 := by
  simp [elemFits, spaceSigned] at h
  rw [abs_le]
  omega

theorem dct_bound {b : Nat → Int} (hb : ∀ k < 64, |b k| ≤ 2 ^ 31) (k : Nat) : |dct b k| ≤ 2 ^ 125 := by
  have hs : |sum8 fun m => sum8 fun n => b (8 * m + n) * cosRom m (k / 8) * cosRom n (k % 8)|
      ≤ 8 * (8 * (2 ^ 31 * 2 ^ 30 * 2 ^ 30)) := by
    refine sum8_bound fun m hm => sum8_bound fun n hn => ?_
    have := hb (8 * m + n) (by omega)
    rw [abs_mul, abs_mul]
    gcongr
    · exact cosRom_bound _ _
    · exact cosRom_bound _ _
  have hn := normRom_bound (k / 8) (k % 8)
  rw [dct, abs_mul, abs_of_nonneg hn.1]
  calc _ ≤ (2 ^ 28 : Int) * (8 * (8 * (2 ^ 31 * 2 ^ 30 * 2 ^ 30))) := by
        gcongr
        exact hn.2
    _ = 2 ^ 125 := by norm_num

theorem dct_fits {b : Nat → Int} (hb : ∀ k < 64, elemFits .blk (b k)) (k : Nat) : elemFits .coef (dct b k) := by
  have := abs_le.1 (dct_bound (fun k hk => elemFits_blk_abs (hb k hk)) k)
  simp [elemFits, spaceSigned]
  omega

/-! ### Quantizer -/

theorem effectiveQuality_range (q : Int) : 1 ≤ effectiveQuality q ∧ effectiveQuality q ≤ 99 := by
  unfold effectiveQuality clamp
  split_ifs <;> omega

theorem qtable_range (c : Config) (kind : Kind) (q : Int) (c255 : Bool) {i : Nat} (hi : i < 64) :
    1 ≤ qtable c kind q c255 i ∧ qtable c kind q c255 i ≤ 50 * baseEntry c kind i := by
  have hb := baseEntry_range c kind hi
  have hq := effectiveQuality_range q
  unfold qtable floorDiv
  generalize effectiveQuality q = qe at *
  have h1 : baseEntry c kind i * 50 / qe ≤ baseEntry c kind i * 50 := Int.ediv_le_self _ (by omega)
  have h2 : baseEntry c kind i * (100 - qe) / 50 ≤ 50 * baseEntry c kind i :=
    Int.ediv_le_of_le_mul (by norm_num) (by nlinarith)
  simp only []
  split_ifs <;> constructor <;> simp <;> omega

theorem qtable_fits (c : Config) (kind : Kind) (q : Int) (c255 : Bool) {i : Nat} (hi : i < 64) :
    elemFits .qt (qtable c kind q c255 i) := by
  have := qtable_range c kind q c255 hi
  have := baseEntry_range c kind hi
  simp [elemFits, spaceSigned, Space.width]
  omega

theorem truncDiv_bound {f d B : Int} (hd : 0 < d) (h : |f| ≤ B * d) (hB : 0 ≤ B) : |truncDiv f d| ≤ B := by
  rw [abs_le] at h
  unfold truncDiv floorDiv
  rw [abs_le]
  split
  · have h1 := Int.ediv_nonneg (a := f) (b := d) (by omega) (by omega)
    have h2 : f / d < B + 1 := Int.ediv_lt_of_lt_mul hd (by linarith)
    omega
  · have h1 := Int.ediv_nonneg (a := -f) (b := d) (by omega) (by omega)
    have h2 : -f / d < B + 1 := Int.ediv_lt_of_lt_mul hd (by linarith)
    omega

theorem nearDiv_bound {f d B : Int} (hd : 0 < d) (h : |f| ≤ B * d) : |nearDiv f d| ≤ B := by
  rw [abs_le] at h
  unfold nearDiv floorDiv
  have h1 : -B ≤ (2 * f + d) / (2 * d) := Int.le_ediv_of_mul_le (by omega) (by nlinarith)
  have h2 : (2 * f + d) / (2 * d) < B + 1 := Int.ediv_lt_of_lt_mul (by omega) (by nlinarith)
  rw [abs_le]
  omega

theorem quant_bound (rnd : Bool) {f t : Int} (hf : |f| ≤ 2 ^ 125) (ht : 1 ≤ t) : |quant rnd f t| ≤ 8591 := by
  have hpos : (0 : Int) < coefDen := by unfold coefDen; norm_num
  have hb : (2 : Int) ^ 125 ≤ 8591 * coefDen := by unfold coefDen; norm_num
  have hd : 0 < t * coefDen := by nlinarith
  have hf' : |f| ≤ 8591 * (t * coefDen) := by nlinarith
  unfold quant
  split
  · exact nearDiv_bound hd hf'
  · exact truncDiv_bound hd hf' (by norm_num)

theorem quant_fits (rnd : Bool) {f t : Int} (hf : |f| ≤ 2 ^ 125) (ht : 1 ≤ t) :
    elemFits .qc (quant rnd f t) ∧ elemFits .zz (quant rnd f t) := by
  have := abs_le.1 (quant_bound rnd hf ht)
  simp [elemFits, spaceSigned]
  omega

theorem State.blockCoef_bound (s : State) (pl : Plane) (i j k : Nat) : |s.blockCoef pl i j k| ≤ 2 ^ 125 :=
  dct_bound (fun k _ => elemFits_blk_abs (s.blkx_fits pl i j k)) k

theorem State.blockQuant_fits (s : State) (pl : Plane) (i j : Nat) {k : Nat} (hk : k < 64) :
    elemFits .qc (s.blockQuant pl i j k) ∧ elemFits .zz (s.blockQuant pl i j k) :=
  quant_fits _ (s.blockCoef_bound pl i j k) (qtable_range _ _ _ _ hk).1

/-! ### Run-length encoder -/

theorem runs_length_le (l : List Int) : (runs l).length ≤ l.length := by
  induction l with
  | nil => simp [runs]
  | cons v rest ih =>
    simp only [runs, List.length_cons]
    generalize runs rest = r at ih
    cases r with
    | nil => simp [consRun]
    | cons p ps =>
      simp only [consRun]
      split <;> simp at * <;> omega

theorem rle_length_le (l : List Int) : (rle l).length ≤ l.length + 1 := by
  have := runs_length_le l
  simp [rle]
  omega

end Sys2Proof.Machine
end

