-- ==== Sys2Proof/Laws/Step.lean ====
section
/-! SUPPORT. What a step does around the action it performs, and what a host write leaves alone. -/

namespace Sys2Proof.Machine

/-! ### One step -/

theorem step_nil {s : State} (h : s.pending = []) : step s = .next s := by simp only [step, h]

theorem step_cons {s : State} {a : HostAction} {rest : List HostAction} (h : s.pending = a :: rest) :
    step s = perform a (s.advance rest) := by simp only [step, h]

/-! ### Host writes -/

section Writes
variable (s : State)

theorem writeCsr_frame (n : Nat) (v : Word) :
    (writeCsr s n v).mem = s.mem ∧ (writeCsr s n v).cfg = s.cfg ∧ (writeCsr s n v).pending = s.pending
      ∧ (writeCsr s n v).reply = s.reply ∧ (writeCsr s n v).draws = s.draws := by
  unfold writeCsr
  split <;> exact ⟨rfl, rfl, rfl, rfl, rfl⟩

@[simp] theorem writeCsr_mem (n : Nat) (v : Word) : (writeCsr s n v).mem = s.mem := (writeCsr_frame s n v).1
@[simp] theorem writeCsr_cfg (n : Nat) (v : Word) : (writeCsr s n v).cfg = s.cfg := (writeCsr_frame s n v).2.1
@[simp] theorem writeCsr_pending (n : Nat) (v : Word) : (writeCsr s n v).pending = s.pending :=
  (writeCsr_frame s n v).2.2.1
@[simp] theorem writeCsr_reply (n : Nat) (v : Word) : (writeCsr s n v).reply = s.reply :=
  (writeCsr_frame s n v).2.2.2.1
@[simp] theorem writeCsr_draws (n : Nat) (v : Word) : (writeCsr s n v).draws = s.draws :=
  (writeCsr_frame s n v).2.2.2.2

/-- No host write to a register changes the fault record or what the commands alone write. -/
theorem writeCsr_readOnly (n : Nat) (v : Word) :
    (writeCsr s n v).csr.status = s.csr.status ∧ (writeCsr s n v).csr.fcode = s.csr.fcode
      ∧ (writeCsr s n v).csr.finfo = s.csr.finfo ∧ (writeCsr s n v).csr.tokn = s.csr.tokn
      ∧ (writeCsr s n v).csr.outn = s.csr.outn ∧ (writeCsr s n v).csr.pstart0 = s.csr.pstart0
      ∧ (writeCsr s n v).csr.pstart1 = s.csr.pstart1 ∧ (writeCsr s n v).csr.pstart2 = s.csr.pstart2 := by
  unfold writeCsr
  split <;> exact ⟨rfl, rfl, rfl, rfl, rfl, rfl, rfl, rfl⟩

theorem hostWriteMem_frame (sp : Space) (i : Nat) (v : Int) :
    (hostWriteMem s sp i v).csr = s.csr ∧ (hostWriteMem s sp i v).cfg = s.cfg
      ∧ (hostWriteMem s sp i v).pending = s.pending ∧ (hostWriteMem s sp i v).reply = s.reply
      ∧ (hostWriteMem s sp i v).draws = s.draws := by
  unfold hostWriteMem
  split <;> exact ⟨rfl, rfl, rfl, rfl, rfl⟩

@[simp] theorem hostWriteMem_csr (sp : Space) (i : Nat) (v : Int) : (hostWriteMem s sp i v).csr = s.csr :=
  (hostWriteMem_frame s sp i v).1
@[simp] theorem hostWriteMem_cfg (sp : Space) (i : Nat) (v : Int) : (hostWriteMem s sp i v).cfg = s.cfg :=
  (hostWriteMem_frame s sp i v).2.1
@[simp] theorem hostWriteMem_pending (sp : Space) (i : Nat) (v : Int) :
    (hostWriteMem s sp i v).pending = s.pending := (hostWriteMem_frame s sp i v).2.2.1
@[simp] theorem hostWriteMem_reply (sp : Space) (i : Nat) (v : Int) :
    (hostWriteMem s sp i v).reply = s.reply := (hostWriteMem_frame s sp i v).2.2.2.1
@[simp] theorem hostWriteMem_draws (sp : Space) (i : Nat) (v : Int) :
    (hostWriteMem s sp i v).draws = s.draws := (hostWriteMem_frame s sp i v).2.2.2.2

end Writes

end Sys2Proof.Machine
end

