-- ==== Sys2Proof/Tests/Slice0.lean ====
section
/-! SUPPORT. Checks of the model on concrete words and states. Expected values are the spec's own
(30_encoding.md R85, R86; 95_test_vectors.md, whose section is named beside each test), never the model's answer.
The second half shows, for every statement with hypotheses, a concrete state that meets them. -/

namespace Sys2Proof.Tests

open Sys2Proof.Machine Sys2Proof.Claims

/-! ### Small states -/

/-- After reset, with WIDTH, HEIGHT, VALID and QUALITY set. -/
def board (w h valid quality : Nat) : State :=
  { State.reset with csr := { Csrs.reset with
      width := BitVec.ofNat 32 w, height := BitVec.ofNat 32 h, valid := BitVec.ofNat 13 valid,
      quality := BitVec.ofNat 32 quality } }

/-- Load the first elements of a space. -/
def load (sp : Space) (vs : List Int) (s : State) : State := s.fillBits sp (vs.map (elemBits sp))

/-- Load all 64 elements of a block space. -/
def load64 (sp : Space) (f : Nat → Int) (s : State) : State := load sp ((List.range 64).map f) s

/-- The same state with a fault recorded. -/
def faulty (s : State) : State := s.raise .notReady 0x40

/-- The state one step after the given command word has been issued. -/
def issue (cw : Nat) (s : State) : Option State :=
  match step (s.withFetchWord 32 cw) with
  | .next t => some t
  | .fault _ => none
  | .refused _ => none

/-- The state one step after the given host action. -/
def act (a : HostAction) (s : State) : Option State :=
  match step { s with pending := [a] } with
  | .next t => some t
  | .fault _ => none
  | .refused _ => none

/-- STATUS, FCODE and FINFO. -/
def record (s : State) : Nat × Nat × Nat := (s.csr.status.toNat, s.csr.fcode.toNat, s.csr.finfo.toNat)

/-- The first `n` elements of a space. -/
def reads (sp : Space) (n : Nat) (s : State) : List Int := (List.range n).map (s.read sp)

/-! ### Well-formedness: an ill-formed term for each check -/

theorem test_wf_sub_y : (Instr.sub .y).wf = false := by decide
theorem test_wf_sub_scb : (Instr.sub .scb).wf = false := by decide
theorem test_wf_sub_scr : (Instr.sub .scr).wf = false := by decide
theorem test_wf_sub_cb : (Instr.sub .cb).wf = true := by decide

/-! ### Decoding: each word written out from format C (R81) and the opcode map (R84):
op 31:24, pl 23:20, z2 19:18, res 17, kind 16, z16 15:0 -/

theorem test_decode_csc : decode 0b00000001_0000_00_0_0_0000000000000000 = .ok .csc := by decide
theorem test_decode_sub_cb : decode 0b00000010_0001_00_0_0_0000000000000000 = .ok (.sub .cb) := by decide
theorem test_decode_sub_cr : decode 0b00000010_0010_00_0_0_0000000000000000 = .ok (.sub .cr) := by decide
theorem test_decode_blkx_y : decode 0b00000011_0000_00_0_0_0000000000000000 = .ok (.blkx .y) := by decide
theorem test_decode_blkx_scr : decode 0b00000011_0100_00_0_0_0000000000000000 = .ok (.blkx .scr) := by decide
theorem test_decode_dct : decode 0b00000100_0000_00_0_0_0000000000000000 = .ok .dct := by decide
theorem test_decode_qtbl_lum : decode 0b00000101_0000_00_0_0_0000000000000000 = .ok (.qtbl .lum) := by decide
theorem test_decode_qtbl_chr : decode 0b00000101_0000_00_0_1_0000000000000000 = .ok (.qtbl .chr) := by decide
theorem test_decode_qnt_chr : decode 0b00000110_0000_00_0_1_0000000000000000 = .ok (.qnt .chr false) := by decide
theorem test_decode_qnt_lum_res : decode 0b00000110_0000_00_1_0_0000000000000000 = .ok (.qnt .lum true) := by decide
theorem test_decode_zz : decode 0b00000111_0000_00_0_0_0000000000000000 = .ok .zz := by decide
theorem test_decode_rle : decode 0b00001000_0000_00_0_0_0000000000000000 = .ok .rle := by decide
theorem test_decode_block_cb : decode 0b00001001_0001_00_0_0_0000000000000000 = .ok (.block .cb) := by decide
theorem test_decode_block_scb : decode 0b00001001_0011_00_0_0_0000000000000000 = .ok (.block .scb) := by decide
theorem test_decode_frame : decode 0b00001010_0000_00_0_0_0000000000000000 = .ok .frame := by decide

/-- The illegal words of section 2.9, each rejected for the reason that section gives. -/
theorem test_illegal_words :
    decode 0x00000000 = .error .opcode ∧ decode 0xFFFFFFFF = .error .z16 ∧ decode 0x0B000000 = .error .opcode
    ∧ decode 0x01000001 = .error .z16 ∧ decode 0x01100000 = .error .plane ∧ decode 0x02000000 = .error .plane
    ∧ decode 0x02300000 = .error .plane ∧ decode 0x03500000 = .error .plane ∧ decode 0x09F00000 = .error .plane
    ∧ decode 0x04010000 = .error .kind ∧ decode 0x05020000 = .error .res ∧ decode 0x06040000 = .error .z2
    ∧ decode 0x06080000 = .error .z2 ∧ decode 0x07008000 = .error .z16 ∧ decode 0x0A100000 = .error .plane := by
  decide

/-- The host's question: bits of the table's numbering; a word longer than `nbits` loses its high bits. -/
theorem test_decode_table_word :
    decodeTableWord 32 0x01000000 = some .csc ∧ decodeTableWord 32 0x02000000 = none
    ∧ decodeTableWord 24 0x01000000 = none := by decide

/-! ### One step of each command -/

/-- Section 2.1, (1,2,3). -/
theorem test_csc :
    (issue 0x01000000 (load .pix [0x010203] (board 1 1 0x0001 50))).map
      (fun t => (reads .py 1 t, reads .pcb 1 t, reads .pcr 1 t, t.csr.valid.toNat))
      = some ([1815000], [128668736], [127418688], 0x000F) := by decide

/-- Section 2.1, yellow: the Cb minimum; section 2.11: both dimensions 0. -/
theorem test_csc_yellow_and_fault :
    (issue 0x01000000 (load .pix [0xFFFF00] (board 1 1 0x0001 50))).map (fun t => reads .pcb 1 t) = some [500000]
    ∧ (issue 0x01000000 (board 0 0 0x0001 50)).map record = some (1, 1, 3) := by decide

/-- Section 2.2, 3 by 3: the missing edge counts as 0. -/
theorem test_sub_odd_edges :
    (issue 0x02100000 (load .pcb
      [1000000, 2000000, 3000000, 4000000, 5000000, 6000000, 7000000, 8000000, 9000000] (board 3 3 0x0004 50))).map
      (fun t => (reads .scb 4 t, t.csr.valid.toNat))
      = some ([12000000, 9000000, 15000000, 9000000], 0x0014) := by decide

/-- Section 2.2, the least sum, on PCR (SUB cr is the same on PCR, SCR). -/
theorem test_sub_cr_least :
    (issue 0x02200000 (load .pcr [-268435456, -268435456, -268435456, -268435456] (board 2 2 0x0008 50))).map
      (fun t => (reads .scr 1 t, t.csr.valid.toNat)) = some ([-1073741824], 0x0028) := by decide

/-- Section 2.3 (b): an offset that is no multiple of 8. -/
theorem test_blkx_offset :
    (issue 0x03000000 (writeCsr
      (load .py [0, 1000000, 2000000, 10000000, 11000000, 12000000] (board 3 2 0x0002 50)) 8 2)).map
      (fun t => reads .blk 10 t) = some [-504000000, 0, 0, 0, 0, 0, 0, 0, -464000000, 0] := by decide

/-- Section 2.3 (e) and (d): a format-S plane; an offset of 2^32 - 1 does not wrap. -/
theorem test_blkx_subsampled_and_far :
    (issue 0x03300000 (load .scb [100000000] (board 2 2 0x0010 50))).map (fun t => reads .blk 2 t)
      = some [-412000000, 0]
    ∧ (issue 0x03000000 (writeCsr (load .py [5, 5] (board 1 2 0x0002 50)) 7 0xFFFFFFFF)).map
      (fun t => reads .blk 16 t) = some (List.replicate 16 0) := by decide

/-- Section 2.4 (e), the horizontal ramp: row 0 of COEF, and the row below it 0. -/
theorem test_dct_ramp :
    (issue 0x04000000 (load64 .blk (fun k => (16 * ((k % 8 : Nat) : Int) - 56) * 4000000) (board 0 0 0x0040 50))).map
      (fun t => reads .coef 9 t)
      = some [0, -1443667146950971618108804956160000000, 0, -150915216134941284741198905344000000, 0,
          -45020549021166754302070358016000000, 0, -11361938444159914285257981952000000, 0] := by decide +kernel

/-- Section 2.4 (b), a unit impulse: entries (0,0), (0,4) and (7,7). -/
theorem test_dct_impulse :
    (issue 0x04000000 (load64 .blk (fun k => if k = 0 then 1 else 0) (board 0 0 0x0040 50))).map
      (fun t => (t.read .coef 0, t.read .coef 4, t.read .coef 63))
      = some (154742504910672534362390528, 154742504709303532781568000, 11779071790968953125208064) := by
  decide +kernel

/-- R144: QUALITY 80. -/
theorem test_qtbl_lum_80 :
    (issue 0x05000000 (board 0 0 0 80)).map (fun t => (reads .qt 8 t, t.csr.valid.toNat))
      = some ([6, 4, 4, 6, 9, 16, 20, 24], 0x0100) := by decide

/-- Section 2.5: QUALITY -5 gives the QUALITY 1 table; with CTRL.C255 = 1 every entry is at most 255. -/
theorem test_qtbl_chr_clamped :
    (issue 0x05010000 (board 0 0 0 0xFFFFFFFB)).map (fun t => reads .qt 4 t) = some [850, 900, 1200, 2350]
    ∧ (issue 0x05010000 (writeCsr (board 0 0 0 1) 0 2)).map (fun t => reads .qt 4 t)
      = some [255, 255, 255, 255] := by decide

/-- Section 2.6, resident table, truncation: 1016/16, -7/2, -1/2; section 2.6: a quotient of 33000 keeps 16 bits. -/
theorem test_qnt_resident_truncates :
    (issue 0x06020000 (load .qt ([16, 2, 1, 1] ++ List.replicate 60 1) (load .coef
      ([5030988319655785437190040846336000000, -34662321099990647697175478272000000,
        -2475880078570760549798248448000000, 163408085185670196286684397568000000000] ++ List.replicate 60 0)
      (board 0 0 0x0180 50)))).map (fun t => (reads .qc 4 t, t.csr.valid.toNat))
      = some ([63, -3, 0, -32536], 0x0380) := by decide +kernel

/-- Section 2.6, fresh table at QUALITY 50, and CTRL.RND = 1: -1024/17 = -60.2; 5/2 at table entry 1 is not in the
fresh table, so the tie is taken resident. -/
theorem test_qnt_fresh_and_rounding :
    (issue 0x06010000 (load64 .coef (fun k => if k = 0 then -5070602400912917605986812821504000000 else 0)
      (board 0 0 0x0080 50))).map (fun t => (t.read .qt 0, t.read .qc 0, t.csr.valid.toNat))
      = some (17, -60, 0x0380)
    ∧ (issue 0x06020000 (writeCsr (load64 .qt (fun _ => 1) (load64 .coef
        (fun k => if k = 0 then 12379400392853802748991242240000000
          else if k = 1 then -12379400392853802748991242240000000 else 0) (board 0 0 0x0180 50))) 0 1)).map
      (fun t => reads .qc 2 t) = some [3, -2] := by decide +kernel

/-- Section 2.7 (a). -/
theorem test_zz_identity :
    (issue 0x07000000 (load64 .qc (fun k => (k : Int)) (board 0 0 0x0200 50))).map
      (fun t => (reads .zz 16 t, t.csr.valid.toNat))
      = some ([0, 1, 5, 6, 14, 15, 27, 28, 2, 4, 7, 13, 16, 26, 29, 42], 0x0600) := by decide +kernel

/-- Section 2.7 (c). -/
theorem test_zz_gathers :
    (issue 0x07000000 (load64 .qc
      (fun k => if k = 0 then -64 else if k = 1 then 5 else if k = 8 then -3 else if k = 9 then 2 else 0)
      (board 0 0 0x0200 50))).map (fun t => (t.read .zz 17, t.read .zz 24, t.read .zz 8))
      = some (-3, 2, 0) := by decide +kernel

/-- Section 2.8: 5,5,5,0,0,-1,-1, then 57 zeros. -/
theorem test_rle_runs :
    (issue 0x08000000 (load .zz ([5, 5, 5, 0, 0, -1, -1] ++ List.replicate 57 0) (board 0 0 0x0400 50))).map
      (fun t => (t.csr.tokn.toNat, reads .tok 5 t, t.csr.valid.toNat))
      = some (5, [0x00050003, 0x00000002, 0xFFFF0002, 0x00000039, 0x00000000], 0x0C00) := by decide +kernel

/-- Section 2.8: alternating 1, -1 gives 65 tokens. -/
theorem test_rle_longest :
    (issue 0x08000000 (load64 .zz (fun k => if k % 2 = 0 then 1 else -1) (board 0 0 0x0400 50))).map
      (fun t => (t.csr.tokn.toNat, t.read .tok 63, t.read .tok 64)) = some (65, 0xFFFF0001, 0) := by
  decide +kernel

/-- Program P2: one chroma block of a subsampled plane. -/
theorem test_block_scb :
    (issue 0x09300000 (load .scb [100000000] (board 2 2 0x0014 50))).map
      (fun t => ([t.read .blk 0, t.read .qt 9, t.read .qc 9], reads .tok 4 t, [t.csr.tokn.toNat, t.csr.valid.toNat]))
      = some ([-412000000, 21, -1], [0x00000018, 0xFFFF0001, 0x00000027, 0x00000000], [4, 0x0FD4]) := by
  decide +kernel

/-- Section 2.11: the geometry is checked before the valid bits. -/
theorem test_block_faults :
    (issue 0x09000000 (board 0 0 0 50)).map record = some (1, 1, 3)
    ∧ (issue 0x09400000 (board 8 8 0 50)).map record = some (1, 4, 0x20) := by decide

/-- The nine pixels of program P8. -/
def p8Pixels : List Int :=
  [0xFF0000, 0x00FF00, 0x0000FF, 0xFFFF00, 0x00FFFF, 0xFF00FF, 0x0A141E, 0xC86432, 0xFFFFFF]

/-- Program P8: a 3 by 3 image at QUALITY 90. -/
theorem test_frame_p8 :
    (issue 0x0A000000 (load .pix p8Pixels (board 3 3 0x0001 90))).map
      (fun t => ([t.csr.outn, t.csr.pstart1, t.csr.pstart2, t.csr.tokn, t.csr.valid.setWidth 32],
        reads .scr 4 t, reads .out 6 t ++ [t.read .out 57, t.read .out 82]))
      = some ([109, 57, 82, 0, 0x103F], [425969120, 342030880, 304252480, 128000000],
          [0x00000002, 0xFFFE0001, 0xFFFF0001, 0xFFFE0001, 0xFFFF0001, 0x000B0001, 0xFFF70001, 0xFFF80001]) := by
  decide +kernel

/-- Section 2.11: WIDTH only; and PIX not valid although every plane is. -/
theorem test_frame_faults :
    (issue 0x0A000000 (board 0 8 0 50)).map record = some (1, 1, 1)
    ∧ (issue 0x0A000000 (board 8 8 0x003E 50)).map record = some (1, 4, 1) := by decide

/-! ### Faults and host actions (sections 2.10, 2.11, program P7) -/

theorem test_lowest_zero_divisor :
    (issue 0x06020000 (load64 .qt (fun k => if k = 5 ∨ k = 9 then 0 else 1) (load64 .coef (fun _ => 0)
      (board 0 0 0x0180 50)))).map (fun t => (record t, t.csr.valid.toNat)) = some ((1, 2, 5), 0x0180) := by
  decide +kernel

theorem test_missing_bits_together :
    (issue 0x06020000 (board 0 0 0 50)).map record = some (1, 4, 0x180)
    ∧ (issue 0x06030000 (board 0 0 0x0080 50)).map record = some (1, 4, 0x100) := by decide

theorem test_illegal_command :
    (issue 0x02000000 (board 0 0 0 50)).map record = some (1, 3, 0x02000000)
    ∧ (issue 0xFFFFFFFF (board 0 0 0 50)).map record = some (1, 3, 0xFFFFFFFF) := by decide

theorem test_faulted_drops :
    (issue 0x05000000 (faulty (board 0 0 0 50))).map (fun t => (record t, t.csr.valid.toNat))
      = some ((1, 4, 0x40), 0) := by decide

theorem test_reset_clears :
    (act .reset (faulty (board 8 8 0x1FFF 7))).map (fun t => (record t, t.csr)) = some ((0, 0, 0), Csrs.reset) := by
  decide

theorem test_width_write_clears_valid :
    (act (.writeCsr 4 8) (board 0 0 0x1FFF 50)).map (fun t => (t.csr.width.toNat, t.csr.valid.toNat))
      = some (8, 0x0FC0) := by decide

theorem test_reserved_bits :
    (act (.writeCsr 0 0xFFFFFFFF) State.reset).map (fun t => readCsr t 0) = some 3
    ∧ (act (.writeCsr 9 0xFFFFFFFF) State.reset).map (fun t => readCsr t 9) = some 0x1FFF
    ∧ (act (.writeCsr 1 1) State.reset).map (fun t => readCsr t 1) = some 0 := by decide

theorem test_read_register :
    (act (.readCsr 6) State.reset).map State.reply = some (some (.csr 50))
    ∧ (act (.readCsr 200) State.reset).map State.reply = some (some (.csr 0)) := by decide

theorem test_write_keeps_low_bits :
    (act (.writeMem .pix 0 0x12345678) State.reset).map (fun t => t.read .pix 0) = some 0x345678
    ∧ (act (.writeMem .py 1 0x30000001) State.reset).map (fun t => t.read .py 1) = some (-268435455)
    ∧ (act (.writeMem .qc 0 0x18000) State.reset).map (fun t => t.read .qc 0) = some (-32768)
    ∧ (act (.writeMem .qt 0 0x1FFFF) State.reset).map (fun t => t.read .qt 0) = some 65535 := by decide

theorem test_index_beyond_space :
    (act (.writeMem .blk 64 5) State.reset).map State.mem = some Memory.unspecified
    ∧ (act (.writeMem .tok 64 5) State.reset).map (fun t => t.read .tok 64) = some 5
    ∧ (act (.readMem .blk 64) State.reset).map State.reply = some (some (.elem 0)) := by decide

theorem test_read_element :
    (act (.readMem .scb 0) (load .scb [0x40000000] State.reset)).map State.reply
      = some (some (.elem (-1073741824))) := by decide

/-! ### Witnesses: states that meet the hypotheses of each statement together -/

/-- A state in which one command is pending. -/
def pendingCmd (cw : Word) (s : State) : State := { s with pending := [.command cw] }

/-- A state in which one host action is pending. -/
def pendingAct (a : HostAction) (s : State) : State := { s with pending := [a] }

theorem witness_StepRunsDecodedCommand :
    ∃ (s : State) (cw : Word) (rest : List HostAction) (i : Instr), s.pending = .command cw :: rest ∧ s.csr.status = 0#1 ∧ decode cw = .ok i :=
  ⟨pendingCmd 0x0A000000 (board 1 1 1 50), 0x0A000000, [], .frame, rfl, rfl, by decide⟩

theorem witness_IdleBlockHoldsItsState : (faulty (board 8 8 0x1FFF 50)).pending = [] := rfl

theorem witness_IllegalWordRaisesIllegalCommand :
    (∃ (s : State) (rest : List HostAction), s.pending = .command 0x02000000 :: rest ∧ s.csr.status = 0#1)
    ∧ (∀ p ∈ legalWords, p.1 ≠ 0x02000000) :=
  ⟨⟨pendingCmd 0x02000000 State.reset, [], rfl, rfl⟩, by decide⟩

theorem witness_FaultedBlockDropsCommands :
    (∃ (s : State) (cw : Word) (rest : List HostAction), s.pending = HostAction.command cw :: rest ∧ s.csr.status = 1#1)
    ∧ (∃ (s : State) (a : HostAction) (rest : List HostAction), s.pending = a :: rest ∧ s.csr.status = 1#1 ∧ (∀ cw, a ≠ .command cw) ∧ a ≠ .reset
        ∧ a ≠ .readCsr 1)
    ∧ (∃ (s : State) (rest : List HostAction), s.pending = HostAction.reset :: rest ∧ s.csr.status = 1#1) :=
  ⟨⟨pendingCmd 0 (faulty State.reset), 0, [], rfl, rfl⟩,
   ⟨pendingAct (.writeCsr 4 8) (faulty State.reset), _, [], rfl, rfl, by simp, by simp, by simp⟩,
   ⟨pendingAct .reset (faulty State.reset), [], rfl, rfl⟩⟩

theorem witness_FaultRecordStandsUntilReset :
    (∃ s t : State, s.csr.status = 1#1 ∧ step s = .next t ∧ ∀ rest, s.pending ≠ .reset :: rest)
    ∧ (∃ (s t : State) (rest : List HostAction), s.csr.status = 1#1 ∧ step s = .next t ∧ s.pending = .reset :: rest) :=
  ⟨⟨pendingCmd 0x05000000 (faulty State.reset), _, rfl, rfl, by simp [pendingCmd]⟩,
   ⟨pendingAct .reset (faulty State.reset), _, [], rfl, rfl, rfl⟩⟩

/-- Another host action with no fault recorded; a dropped command; an illegal word. -/
theorem witness_CommandReportsFirstFault_before :
    (∃ (s : State) (a : HostAction) (rest : List HostAction), s.pending = a :: rest ∧ (∀ cw, a ≠ HostAction.command cw) ∧ s.csr.status = 0#1)
    ∧ (∃ (s : State) (cw : Word) (rest : List HostAction), s.pending = HostAction.command cw :: rest ∧ s.csr.status = 1#1)
    ∧ (∃ (s : State) (rest : List HostAction), s.pending = HostAction.command 0x0B000000 :: rest ∧ s.csr.status = 0#1)
    ∧ ∀ i, decode 0x0B000000 ≠ .ok i :=
  ⟨⟨pendingAct (.writeCsr 4 0) State.reset, _, [], rfl, by simp, rfl⟩,
   ⟨pendingCmd 0 (faulty State.reset), 0, [], rfl, rfl⟩,
   ⟨pendingCmd 0x0B000000 State.reset, [], rfl, rfl⟩,
   fun i h => by
     rw [show decode 0x0B000000 = .error .opcode by decide] at h
     cases h⟩

/-- InvalidInput at WIDTH = MAXW + 1, though PIX is not valid either. -/
theorem witness_CommandReportsFirstFault_geometry :
    decode 0x01000000 = .ok .csc
    ∧ faultsWith .csc ((pendingCmd 0x01000000 (board 4097 1 0 50)).advance []) 1 1 :=
  ⟨by decide, .inl ⟨rfl, rfl, by decide, by decide⟩⟩

/-- NotReady at the largest legal geometry. -/
theorem witness_CommandReportsFirstFault_valid :
    decode 0x01000000 = .ok .csc
    ∧ faultsWith .csc ((pendingCmd 0x01000000 (board 4096 4096 0 50)).advance []) 4 1 :=
  ⟨by decide, .inr (.inl ⟨rfl, fun _ => by decide, by decide, by decide⟩)⟩

/-- ArithmeticFault at the last index, 63. -/
theorem witness_CommandReportsFirstFault_zero :
    decode 0x06020000 = .ok (.qnt .lum true)
    ∧ faultsWith (.qnt .lum true)
        ((pendingCmd 0x06020000 (load64 .qt (fun k => if k = 63 then 0 else 1) (board 0 0 0x0180 50))).advance [])
        2 63 :=
  ⟨by decide, .inr (.inr ⟨rfl, rfl, by decide, 63, by decide, by decide +kernel, by decide +kernel, rfl⟩)⟩

/-- No fault: QTBL needs nothing. -/
theorem witness_CommandReportsFirstFault_none :
    decode 0x05000000 = .ok (.qtbl .lum)
    ∧ ∀ code info, ¬ faultsWith (.qtbl .lum) ((pendingCmd 0x05000000 State.reset).advance []) code info := by
  refine ⟨by decide, fun code info => ?_⟩
  rintro (⟨-, h, -⟩ | ⟨-, -, h, -⟩ | ⟨-, h, -⟩)
  · exact absurd h (by decide)
  · exact h (by decide)
  · exact absurd h (by decide)

theorem witness_FaultingCommandChangesNothingElse :
    ∃ (i : Instr) (s t : State), s.csr.status = 0#1 ∧ exec i s = .next t ∧ t.csr.status = 1#1 :=
  ⟨.zz, State.reset, _, rfl, rfl, by decide⟩

/-- CSC and FRAME: each of the three clauses, at the ends of the legal range. -/
theorem witness_CscConvertsEveryPixel_and_FrameWritesPlanesAndRegisters :
    (¬ geometryOk (board 0 1 1 50) ∧ ¬ geometryOk (board 4096 4097 1 50))
    ∧ (geometryOk (board 4096 1 0x1FFE 50) ∧ (board 4096 1 0x1FFE 50).csr.valid.getLsbD 0 = false)
    ∧ (geometryOk (board 1 4096 1 50) ∧ (board 1 4096 1 50).csr.valid.getLsbD 0 = true) := by decide

theorem witness_SubSumsEveryNeighbourhood :
    (Plane.scr ∈ [Plane.y, .scb, .scr])
    ∧ (Plane.cr, Space.pcr, Space.scr, 3, 5)
        ∈ [(Plane.cb, Space.pcb, Space.scb, 2, 4), (Plane.cr, Space.pcr, Space.scr, 3, 5)]
    ∧ ¬ geometryOk (board 1 0 8 50)
    ∧ (geometryOk (board 1 1 0x1FF7 50) ∧ (board 1 1 0x1FF7 50).csr.valid.getLsbD 3 = false)
    ∧ (geometryOk (board 4096 4096 8 50) ∧ (board 4096 4096 8 50).csr.valid.getLsbD 3 = true) := by decide

/-- BLKX, BLOCK, and BLOCK against its unit commands. -/
theorem witness_BlkxExtractsCentredBlock_and_BlockRunsUnitsThreeToSeven_and_BlockEqualsUnitCommands :
    ¬ geometryOk (board 0 0 0x20 50)
    ∧ (geometryOk (board 1 1 0x1FDF 50) ∧ (board 1 1 0x1FDF 50).csr.valid.getLsbD (validBitOf .scr) = false)
    ∧ (geometryOk (board 4096 1 0x20 50) ∧ (board 4096 1 0x20 50).csr.valid.getLsbD (validBitOf .scr) = true)
    ∧ (geometryOk (board 1 1 2 50) ∧ (board 1 1 2 50).csr.valid.getLsbD (validBitOf .y) = true) := by decide

theorem witness_DctStoresExactDoubleSum :
    (board 0 0 0x1FBF 50).csr.valid.getLsbD 6 = false ∧ (board 0 0 0x0040 50).csr.valid.getLsbD 6 = true := by
  decide

/-- COEF and QT declared valid, QT holding a given table. -/
def withTable (f : Nat → Int) : State := load64 .qt f (board 0 0 0x0180 50)

/-- QNT: the fresh clauses, the missing mask, a zero at index 0 and at 63, and a table without a zero. -/
theorem witness_QntDividesByTable :
    (board 0 0 0x1F7F 50).csr.valid.getLsbD 7 = false ∧ (board 0 0 0x0080 50).csr.valid.getLsbD 7 = true
    ∧ ¬ ((board 0 0 0x0080 50).csr.valid.getLsbD 7 = true ∧ (board 0 0 0x0080 50).csr.valid.getLsbD 8 = true)
    ∧ ((withTable fun k => if k = 63 then 0 else 1).csr.valid = 0x0180
      ∧ (withTable fun k => if k = 63 then 0 else 1).read .qt 63 = 0
      ∧ ∀ j < 63, (withTable fun k => if k = 63 then 0 else 1).read .qt j ≠ 0)
    ∧ ((withTable fun _ => 0).read .qt 0 = 0 ∧ ∀ j < 0, (withTable fun _ => 0).read .qt j ≠ 0)
    ∧ (∀ i < 64, (withTable fun _ => 65535).read .qt i ≠ 0) := by
  decide +kernel

theorem witness_ZzGathersThroughIndexTable :
    (board 0 0 0x1DFF 50).csr.valid.getLsbD 9 = false ∧ (board 0 0 0x0200 50).csr.valid.getLsbD 9 = true
    ∧ zigzagTable.length = 64 := by decide

theorem witness_RleWritesMaximalRuns :
    (board 0 0 0x1BFF 50).csr.valid.getLsbD 10 = false ∧ (board 0 0 0x0400 50).csr.valid.getLsbD 10 = true := by
  decide

/-- The composite statements about FRAME: a 1 by 1 and the largest image. -/
theorem witness_FrameEqualsHostDrivenLoop_and_FrameOutputLayout :
    (geometryOk (board 1 1 1 50) ∧ (board 1 1 1 50).csr.valid.getLsbD 0 = true)
    ∧ (geometryOk (board 4096 4096 1 50) ∧ (board 4096 4096 1 50).csr.valid.getLsbD 0 = true) := by decide

theorem witness_ColourTransformRanges :
    ∃ r g b : Int, 0 ≤ r ∧ r ≤ 255 ∧ 0 ≤ g ∧ g ≤ 255 ∧ 0 ≤ b ∧ b ≤ 255 := ⟨255, 0, 255, by decide⟩

theorem witness_ResultsFitTheirElements :
    Space.pcr ∈ [Space.pcb, .pcr] ∧ (63 : Nat) < 64 ∧ (1 : Int) ≤ 1 := by decide

theorem witness_QualityIsClampedToLegalRange : (-5 : Int) ≤ 1 ∧ (1 : Int) ≤ 1 ∧ (99 : Int) ≤ 2147483647 := by decide

theorem witness_DctExactProperties : (0 : Nat) < 64 ∧ (63 : Nat) < 64 ∧ (7 : Nat) < 8 ∧ (0 : Nat) < 7 := by decide

theorem witness_SeparableDctIsIdentical : (7 : Nat) < 8 ∧ (0 : Nat) < 8 := by decide

theorem witness_ZigzagScatterRestoresBlock :
    ∃ blk back : Nat → Int, (∀ i < 64, back (zzRom i) = zigzag blk i) ∧ blk 1 ≠ blk 2 :=
  ⟨fun k => k, fun k => k, fun _ _ => rfl, by decide⟩

theorem witness_RleExpansionRestoresSequence_and_RleTokenProperties :
    ∃ zz : List Int, zz.length = 64 ∧ rle zz = [(5, 3), (0, 61), (0, 0)] :=
  ⟨[5, 5, 5] ++ List.replicate 61 0, by decide, by decide +kernel⟩

theorem witness_HostResetRestoresRegisters : ∃ (s : State) (rest : List HostAction), s.pending = HostAction.reset :: rest ∧ s.csr.status = 1#1 :=
  ⟨pendingAct .reset (faulty (board 8 8 0x1FFF 7)), [], rfl, rfl⟩

theorem witness_GeometryWriteInvalidatesPlanes :
    (∃ (s : State) (rest : List HostAction), s.pending = HostAction.writeCsr 4 0xFFFFFFFF :: rest)
    ∧ (∃ (s : State) (rest : List HostAction), s.pending = HostAction.writeCsr 5 0 :: rest) :=
  ⟨⟨pendingAct (.writeCsr 4 0xFFFFFFFF) (board 8 8 0x1FFF 50), [], rfl⟩,
   ⟨pendingAct (.writeCsr 5 0) (board 8 8 0x1FFF 50), [], rfl⟩⟩

theorem witness_RegisterWriteReadsBack :
    (∃ (s : State) (rest : List HostAction), s.pending = HostAction.writeCsr 9 0xFFFFFFFF :: rest)
    ∧ (∃ (s : State) (rest : List HostAction), s.pending = HostAction.writeCsr 15 1 :: rest)
    ∧ (∃ (s : State) (rest : List HostAction), s.pending = HostAction.writeCsr 4 1 :: rest ∧ (0 : Nat) ≠ 4 ∧ ¬ (0 = 9 ∧ (4 = 4 ∨ 4 = 5))) :=
  ⟨⟨pendingAct (.writeCsr 9 0xFFFFFFFF) State.reset, [], rfl⟩, ⟨pendingAct (.writeCsr 15 1) State.reset, [], rfl⟩,
   ⟨pendingAct (.writeCsr 4 1) State.reset, [], rfl, by decide, by decide⟩⟩

theorem witness_RegisterReadHasNoSideEffect : ∃ (s : State) (rest : List HostAction), s.pending = HostAction.readCsr 15 :: rest :=
  ⟨pendingAct (.readCsr 15) State.reset, [], rfl⟩

/-- The last element of TOK and the first index beyond it. -/
theorem witness_HostWriteKeepsLowBits :
    (∃ (s : State) (rest : List HostAction), s.pending = HostAction.writeMem .tok 64 (-1) :: rest ∧ 64 < spaceSize s.cfg .tok)
    ∧ (∃ (s : State) (rest : List HostAction), s.pending = HostAction.writeMem .tok 65 5 :: rest ∧ spaceSize s.cfg .tok ≤ 65) :=
  ⟨⟨pendingAct (.writeMem .tok 64 (-1)) State.reset, [], rfl, by decide⟩,
   ⟨pendingAct (.writeMem .tok 65 5) State.reset, [], rfl, by decide⟩⟩

theorem witness_HostReadAnswersByType :
    (∃ (s : State) (rest : List HostAction) (b : BitVec 32), s.pending = HostAction.readMem .blk 63 :: rest ∧ 63 < spaceSize s.cfg .blk
      ∧ cellsGet (s.mem.get .blk) 63 = some b)
    ∧ (∃ (s : State) (rest : List HostAction), s.pending = HostAction.readMem .blk 64 :: rest ∧ spaceSize s.cfg .blk ≤ 64) :=
  ⟨⟨pendingAct (.readMem .blk 63) (State.reset.write .blk 63 (-2)), [], BitVec.ofInt 32 (-2), rfl, by decide,
     by decide⟩,
   ⟨pendingAct (.readMem .blk 64) State.reset, [], rfl, by decide⟩⟩

/-- A good state in which a command is pending, and the step it takes. -/
theorem witness_StepKeepsInvariant :
    ∃ s t : State, s.Inv ∧ step s = .next t ∧ s.pending ≠ [] :=
  ⟨pendingCmd 0x0A000000 State.reset, _,
    ⟨Memory.reset_wf, ⟨fun _ => ⟨rfl, rfl⟩, fun h => absurd h (by decide)⟩, .inl rfl,
      ⟨rfl, Nat.le_refl 0, Nat.le_refl 0, Nat.zero_le _⟩⟩, rfl, by simp [pendingCmd]⟩

theorem witness_ParametersNeverChange : ∃ s t : State, step s = .next t ∧ s.pending ≠ [] :=
  ⟨pendingAct .reset State.reset, _, rfl, by simp [pendingAct]⟩

theorem witness_CommandsKeepHostInputs_and_OnlyFrameClearsValidBits :
    (∃ s t : State, exec .frame s = .next t) ∧ (∃ s t : State, exec (.qtbl .chr) s = .next t)
    ∧ Instr.qtbl .chr ≠ .frame :=
  ⟨⟨board 1 1 1 50, _, rfl⟩, ⟨State.reset, _, rfl⟩, by decide⟩

/-- Two states that differ in an element outside the 1 by 1 plane, and in nothing a command may read. -/
theorem witness_ElementsOutsidePlanesHaveNoEffect :
    ∃ s s' t t' : State, s ≠ s' ∧ agreeOnReadable s s' ∧ exec .csc s = .next t ∧ exec .csc s' = .next t' := by
  refine ⟨load .pix [7, 1] (board 1 1 1 50), load .pix [7, 2] (board 1 1 1 50), _, _, by decide, ?_, rfl, rfl⟩
  refine ⟨rfl, rfl, rfl, ?_, ?_, ?_⟩
  · intro sp hsp k hk
    have hk : k < 1 := hk
    obtain rfl : k = 0 := by omega
    simp only [List.mem_cons, List.not_mem_nil, or_false] at hsp
    rcases hsp with rfl | rfl | rfl | rfl <;> rfl
  · intro sp hsp k _
    simp only [List.mem_cons, List.not_mem_nil, or_false] at hsp
    rcases hsp with rfl | rfl <;> rfl
  · intro sp hsp k _
    simp only [List.mem_cons, List.not_mem_nil, or_false] at hsp
    rcases hsp with rfl | rfl | rfl | rfl | rfl <;> rfl

theorem witness_LoopOrderIsNotObservable :
    (board 1 1 0 50).mem.wf (board 1 1 0 50).cfg = true ∧ [2, 0, 1].Perm (List.range 3) := by decide

theorem witness_RomTablesAreThePrintedOnes : cosineTable.length = 64 ∧ (7 : Nat) < 8 ∧ (0 : Nat) < 7 := by decide

/-- R21: the numbers of the table, on a state in which the fifteen registers all differ. -/
theorem test_register_numbers :
    ((List.range 16).map (readCsr { State.reset with csr :=
      ⟨1, 0, 12, 13, 14, 15, 16, 17, 18, 19, 20, 21, 22, 23, 24⟩ }))
      = [1, 0, 12, 13, 14, 15, 16, 17, 18, 19, 20, 21, 22, 23, 24, 0] := by decide

end Sys2Proof.Tests
end

section
/-! What every command and every host action leaves alone of the model's own fields (00_scope.md R10): a command keeps
all four of them, whether it completes or faults, and no action at all writes the parameters of R8. -/

namespace Sys2Proof.Machine

open Sys2Proof.Claims

theorem sameModelFields_trans {s t u : State} (hst : sameModelFields s t) (htu : sameModelFields t u) :
    sameModelFields s u := by
  obtain ⟨hcfg, hpending, hreply, hdraws⟩ := hst
  obtain ⟨hcfg', hpending', hreply', hdraws'⟩ := htu
  exact ⟨hcfg'.trans hcfg, hpending'.trans hpending, hreply'.trans hreply, hdraws'.trans hdraws⟩

section ModelFields
variable (s : State)

/-! ### Faults and the checks before a command's writes -/

theorem State.raise_sameModelFields (c : Cause) (info : Word) : sameModelFields s (s.raise c info) := by
  simp [sameModelFields]

theorem State.checkGeometry_sameModelFields {run : State → State} (h : sameModelFields s (run s)) :
    sameModelFields s (s.checkGeometry run) := by
  obtain ⟨-, hrun⟩ | ⟨-, hraise⟩ := s.checkGeometry_cases run
  · rwa [hrun]
  · rw [hraise]
    exact s.raise_sameModelFields _ _

theorem State.checkValid_sameModelFields (need : List Space) {run : State → State}
    (h : sameModelFields s (run s)) : sameModelFields s (s.checkValid need run) := by
  obtain ⟨-, hrun⟩ | ⟨-, hraise⟩ := s.checkValid_cases need run
  · rwa [hrun]
  · rw [hraise]
    exact s.raise_sameModelFields _ _

/-! ### The writes of the units -/

theorem State.setValid_sameModelFields (l : List Space) : sameModelFields s (s.setValid l) := by
  simp [sameModelFields]

theorem writeColorPlanes_sameModelFields : sameModelFields s (writeColorPlanes s) := by
  simp [sameModelFields, writeColorPlanes]

theorem writeSubsampled_sameModelFields (pl : Plane) : sameModelFields s (writeSubsampled pl s) := by
  simp [sameModelFields, writeSubsampled]

theorem State.loadTable_sameModelFields (t : Nat → Int) : sameModelFields s (s.loadTable t) := by
  simp [sameModelFields, State.loadTable]

theorem State.quantizeBy_sameModelFields (t : Nat → Int) : sameModelFields s (s.quantizeBy t) := by
  simp [sameModelFields, State.quantizeBy]

theorem writeBlock_sameModelFields (pl : Plane) (i j : Nat) : sameModelFields s (writeBlock pl i j s) := by
  simp [sameModelFields, writeBlock]

theorem State.loadOutput_sameModelFields (ty tcb tcr : List (Int × Nat)) :
    sameModelFields s (s.loadOutput ty tcb tcr) := by
  simp [sameModelFields, State.loadOutput]

theorem quantizeFresh_sameModelFields (kind : Kind) : sameModelFields s (quantizeFresh kind s) :=
  sameModelFields_trans (s.loadTable_sameModelFields _) (State.quantizeBy_sameModelFields _ _)

theorem quantizeResident_sameModelFields : sameModelFields s (quantizeResident s) := by
  unfold quantizeResident
  split
  · exact s.raise_sameModelFields _ _
  · exact s.quantizeBy_sameModelFields _

theorem writeAllPlanes_sameModelFields : sameModelFields s (writeAllPlanes s) :=
  sameModelFields_trans (writeColorPlanes_sameModelFields s) <|
    sameModelFields_trans (writeSubsampled_sameModelFields _ .cb) (writeSubsampled_sameModelFields _ .cr)

theorem writeFrame_sameModelFields : sameModelFields s (writeFrame s) :=
  sameModelFields_trans (writeAllPlanes_sameModelFields s) (State.loadOutput_sameModelFields _ _ _ _)

/-! ### Commands and host actions -/

theorem execSub_completes (pl : Plane) : ∃ t, execSub pl s = .next t ∧ sameModelFields s t := by
  refine ⟨_, rfl, ?_⟩
  split
  · exact s.checkGeometry_sameModelFields <| s.checkValid_sameModelFields _ <|
      sameModelFields_trans (writeSubsampled_sameModelFields s pl) (State.setValid_sameModelFields _ _)
  · exact s.raise_sameModelFields _ _

theorem execQnt_completes (kind : Kind) (res : Bool) :
    ∃ t, execQnt kind res s = .next t ∧ sameModelFields s t := by
  refine ⟨_, rfl, ?_⟩
  split
  · exact s.checkValid_sameModelFields _ (quantizeResident_sameModelFields s)
  · exact s.checkValid_sameModelFields _ (quantizeFresh_sameModelFields s kind)

/-- A command ends in a next state from every state (30_encoding.md R80), and writes registers and spaces only. -/
theorem exec_completes (i : Instr) : ∃ t, exec i s = .next t ∧ sameModelFields s t := by
  cases i with
  | csc =>
    exact ⟨_, rfl, s.checkGeometry_sameModelFields <| s.checkValid_sameModelFields _ <|
      sameModelFields_trans (writeColorPlanes_sameModelFields s) (State.setValid_sameModelFields _ _)⟩
  | sub pl => exact execSub_completes s pl
  | blkx pl =>
    exact ⟨_, rfl, s.checkGeometry_sameModelFields <| s.checkValid_sameModelFields _ <| by simp [sameModelFields]⟩
  | dct => exact ⟨_, rfl, s.checkValid_sameModelFields _ <| by simp [sameModelFields]⟩
  | qtbl kind => exact ⟨_, rfl, s.loadTable_sameModelFields _⟩
  | qnt kind res => exact execQnt_completes s kind res
  | zz => exact ⟨_, rfl, s.checkValid_sameModelFields _ <| by simp [sameModelFields]⟩
  | rle => exact ⟨_, rfl, s.checkValid_sameModelFields _ <| by simp [sameModelFields]⟩
  | block pl =>
    exact ⟨_, rfl, s.checkGeometry_sameModelFields <| s.checkValid_sameModelFields _ <|
      writeBlock_sameModelFields s pl _ _⟩
  | frame =>
    exact ⟨_, rfl, s.checkGeometry_sameModelFields <| s.checkValid_sameModelFields _ <|
      writeFrame_sameModelFields s⟩

theorem hostCmd_completes (cw : Word) : ∃ t, hostCmd cw s = .next t ∧ sameModelFields s t := by
  unfold hostCmd
  split
  · exact ⟨s, rfl, rfl, rfl, rfl, rfl⟩
  · split
    · exact ⟨_, rfl, s.raise_sameModelFields _ _⟩
    · exact exec_completes s _

/-- None of the six host actions (00_scope.md R10) stops the machine. The reply is left out of what they keep: the two
reads set it. -/
theorem perform_completes (a : HostAction) :
    ∃ t, perform a s = .next t ∧ t.cfg = s.cfg ∧ t.pending = s.pending ∧ t.draws = s.draws := by
  cases a with
  | reset => exact ⟨_, rfl, by simp⟩
  | writeCsr n v => exact ⟨_, rfl, by simp⟩
  | readCsr n => exact ⟨_, rfl, rfl, rfl, rfl⟩
  | writeMem sp i v => exact ⟨_, rfl, by simp⟩
  | readMem sp i => exact ⟨_, rfl, rfl, rfl, rfl⟩
  | command cw =>
    obtain ⟨t, ht, hcfg, hpending, -, hdraws⟩ := hostCmd_completes s cw
    exact ⟨t, ht, hcfg, hpending, hdraws⟩

theorem step_completes : ∃ t, step s = .next t ∧ t.cfg = s.cfg ∧ t.pending = s.pending.tail := by
  cases hp : s.pending with
  | nil => exact ⟨s, step_nil hp, rfl, hp⟩
  | cons a rest =>
    obtain ⟨t, ht, hcfg, hpending, -⟩ := perform_completes (s.advance rest) a
    exact ⟨t, (step_cons hp).trans ht, hcfg, hpending⟩

end ModelFields

/-- Settles O42: the one state a step ends in has the parameters of the state before. -/
theorem parametersNeverChange : Obligations.ParametersNeverChange := by
  intro s t ht
  obtain ⟨u, hu, hcfg, -⟩ := step_completes s
  obtain rfl : u = t := by simpa [hu] using ht
  exact hcfg

end Sys2Proof.Machine
end

section
/-! What a command can do (30_encoding.md R80): it reports a fault and does nothing else, or it has its full effect. The
effect of each command stands here once, with the spaces it writes, the VALID bits it moves and the registers it keeps,
so that a fact about all commands needs no look at the checks before the writes. -/

namespace Sys2Proof.Machine

open Sys2Proof.Claims

/-- The form of the detail that goes with each fault (60_exceptions.md R200 to R204). -/
def faultDetailOk (info : Word) : Cause → Prop
  | .invalidInput => 1 ≤ info.toNat ∧ info.toNat ≤ 3
  | .arithmeticFault => info.toNat < 64
  | .illegalCommand => ∀ i, decode info ≠ .ok i
  | .notReady => 0 < info.toNat ∧ info.toNat < 0x800

/-- `t` is `s` with a fault raised, the detail in the form its code asks for. -/
def State.FaultsTo (s t : State) : Prop := ∃ c info, faultDetailOk info c ∧ t = s.raise c info

/-- The state a command leaves when none of its checks fails. -/
def effect (s : State) : Instr → State
  | .csc => (writeColorPlanes s).setValid [.py, .pcb, .pcr]
  | .sub pl => (writeSubsampled pl s).setValid [subDest pl]
  | .blkx pl => (s.fill .blk 64 (s.blkx pl s.offI s.offJ)).setValid [.blk]
  | .dct => (s.fill .coef 64 (dct (s.read .blk))).setValid [.coef]
  | .qtbl kind => s.loadTable (s.freshTable kind)
  | .qnt kind false => quantizeFresh kind s
  | .qnt _ true => s.quantizeBy (s.read .qt)
  | .zz => (s.fill .zz 64 (zigzag (s.read .qc))).setValid [.zz]
  | .rle => (s.loadTokens (rle (list64 (s.read .zz)))).setValid [.tok]
  | .block pl => writeBlock pl s.offI s.offJ s
  | .frame => writeFrame s

/-- How a command ends: it faults, or it has its full effect, and then the geometry it uses was legal. -/
def State.Ends (s : State) (i : Instr) (t : State) : Prop :=
  s.FaultsTo t ∨ ((usesGeometry i = true → s.geomLegal) ∧ t = effect s i)

/-! ### The checks before the writes -/

section Checks
variable (s : State)

theorem State.geomInfo_bounds (h : ¬ s.geomLegal) : 1 ≤ s.geomInfo.toNat ∧ s.geomInfo.toNat ≤ 3 := by
  unfold State.geomInfo
  by_cases hw : s.widthLegal
  · by_cases hh : s.heightLegal
    · exact absurd ⟨hw, hh⟩ h
    · rw [if_pos hw, if_neg hh]
      decide
  · rw [if_neg hw]
    split <;> decide

theorem State.checkGeometry_outcome (run : State → State) :
    s.FaultsTo (s.checkGeometry run) ∨ (s.geomLegal ∧ s.checkGeometry run = run s) := by
  obtain h | ⟨hgeom, hraise⟩ := s.checkGeometry_cases run
  · exact .inr h
  · exact .inl ⟨.invalidInput, s.geomInfo, s.geomInfo_bounds hgeom, hraise⟩

/-- The mask of spaces other than TOK and OUT ends below VALID bit 11. -/
theorem validBits_lt {need : List Space} (htok : .tok ∉ need) (hout : .out ∉ need) :
    (validBits need).toNat < 0x800 := by
  induction need with
  | nil => decide
  | cons sp rest ih =>
    obtain ⟨htok, htoks⟩ := List.ne_and_not_mem_of_not_mem_cons htok
    obtain ⟨hout, houts⟩ := List.ne_and_not_mem_of_not_mem_cons hout
    have hsp : (1#13 <<< vbit sp).toNat < 2 ^ 11 := by
      cases sp with
      | tok => exact absurd rfl htok
      | out => exact absurd rfl hout
      | _ => decide
    exact Nat.or_lt_two_pow hsp (ih htoks houts)

/-- No command needs TOK or OUT: the detail of NotReady never names VALID bits 11 and 12. -/
theorem State.checkValid_outcome {need : List Space} (htok : .tok ∉ need) (hout : .out ∉ need)
    (run : State → State) : s.FaultsTo (s.checkValid need run) ∨ s.checkValid need run = run s := by
  obtain ⟨-, hrun⟩ | ⟨hmissing, hraise⟩ := s.checkValid_cases need run
  · exact .inr hrun
  · refine .inl ⟨.notReady, _, ?_, hraise⟩
    have hpos : (s.missing need).toNat ≠ 0 := fun h => hmissing (BitVec.eq_of_toNat_eq h)
    have hle : (s.missing need).toNat ≤ (validBits need).toNat := Nat.and_le_left
    have hlt := validBits_lt htok hout
    simp only [faultDetailOk, BitVec.toNat_setWidth]
    omega

theorem quantizeResident_outcome :
    s.FaultsTo (quantizeResident s) ∨ quantizeResident s = s.quantizeBy (s.read .qt) := by
  unfold quantizeResident
  split
  · rename_i i hi
    have hlt : i < 64 := List.mem_range.1 (List.mem_of_find?_eq_some hi)
    refine .inl ⟨.arithmeticFault, _, ?_, rfl⟩
    simp only [faultDetailOk, BitVec.toNat_ofNat]
    omega
  · exact .inr rfl

/-- What a command that uses no geometry ends in. -/
theorem State.checkValid_ends {i : Instr} {need : List Space} {run : State → State} (hi : usesGeometry i = false)
    (htok : .tok ∉ need) (hout : .out ∉ need) (hrun : run s = effect s i) : s.Ends i (s.checkValid need run) :=
  (s.checkValid_outcome htok hout run).imp_right fun h => ⟨by simp [hi], h.trans hrun⟩

/-- What a command that uses the geometry ends in. -/
theorem State.checkGeometry_ends {i : Instr} {need : List Space} {run : State → State}
    (htok : .tok ∉ need) (hout : .out ∉ need) (hrun : run s = effect s i) :
    s.Ends i (s.checkGeometry fun s => s.checkValid need run) := by
  obtain hfault | ⟨hgeom, heq⟩ := s.checkGeometry_outcome fun s => s.checkValid need run
  · exact .inl hfault
  · rw [heq]
    exact (s.checkValid_outcome htok hout run).imp_right fun h => ⟨fun _ => hgeom, h.trans hrun⟩

/-! ### How each command ends -/

theorem planeSpace_ne_tok (pl : Plane) : .tok ∉ [planeSpace pl] := by cases pl <;> decide
theorem planeSpace_ne_out (pl : Plane) : .out ∉ [planeSpace pl] := by cases pl <;> decide

theorem decode_encode_sub_illegal {pl : Plane} (h : ¬ pl.subsampled = true) :
    decode (encode (.sub pl)) = .error .plane := by
  revert h
  cases pl <;> decide

theorem execSub_ends (pl : Plane) : ∃ t, execSub pl s = .next t ∧ s.Ends (.sub pl) t := by
  refine ⟨_, rfl, ?_⟩
  split
  · exact s.checkGeometry_ends (planeSpace_ne_tok pl) (planeSpace_ne_out pl) rfl
  · rename_i hpl
    exact .inl ⟨.illegalCommand, _, fun i hi => by simp [decode_encode_sub_illegal hpl] at hi, rfl⟩

theorem execQnt_ends (kind : Kind) (res : Bool) : ∃ t, execQnt kind res s = .next t ∧ s.Ends (.qnt kind res) t := by
  refine ⟨_, rfl, ?_⟩
  cases res with
  | false => exact s.checkValid_ends rfl (by decide) (by decide) rfl
  | true =>
    obtain hfault | heq := s.checkValid_outcome (need := [.coef, .qt]) (by decide) (by decide) quantizeResident
    · exact .inl hfault
    · rw [if_pos rfl, heq]
      exact (quantizeResident_outcome s).imp_right fun h => ⟨nofun, h⟩

theorem exec_ends (i : Instr) : ∃ t, exec i s = .next t ∧ s.Ends i t := by
  cases i with
  | csc => exact ⟨_, rfl, s.checkGeometry_ends (by decide) (by decide) rfl⟩
  | sub pl => exact execSub_ends s pl
  | blkx pl => exact ⟨_, rfl, s.checkGeometry_ends (planeSpace_ne_tok pl) (planeSpace_ne_out pl) rfl⟩
  | dct => exact ⟨_, rfl, s.checkValid_ends rfl (by decide) (by decide) rfl⟩
  | qtbl kind => exact ⟨_, rfl, .inr ⟨nofun, rfl⟩⟩
  | qnt kind res => exact execQnt_ends s kind res
  | zz => exact ⟨_, rfl, s.checkValid_ends rfl (by decide) (by decide) rfl⟩
  | rle => exact ⟨_, rfl, s.checkValid_ends rfl (by decide) (by decide) rfl⟩
  | block pl => exact ⟨_, rfl, s.checkGeometry_ends (planeSpace_ne_tok pl) (planeSpace_ne_out pl) rfl⟩
  | frame => exact ⟨_, rfl, s.checkGeometry_ends (by decide) (by decide) rfl⟩

end Checks

/-- The inversion lemma of a command. -/
theorem ends_of_exec {i : Instr} {s t : State} (h : exec i s = .next t) : s.Ends i t := by
  obtain ⟨u, hu, hends⟩ := exec_ends s i
  obtain rfl : u = t := by simpa [hu] using h
  exact hends

/-! ### What an effect writes and what it keeps -/

/-- The spaces whose contents a command writes; it sets the VALID bits of exactly these. -/
def outputs : Instr → List Space
  | .csc => [.py, .pcb, .pcr]
  | .sub pl => [subDest pl]
  | .blkx _ => [.blk]
  | .dct => [.coef]
  | .qtbl _ => [.qt]
  | .qnt _ false => [.qt, .qc]
  | .qnt _ true => [.qc]
  | .zz => [.zz]
  | .rle => [.tok]
  | .block _ => blockSpaces
  | .frame => [.py, .pcb, .pcr, .scb, .scr, .out]

/-- The spaces whose contents a command makes unspecified; it clears the VALID bits of exactly these. -/
def invalidates : Instr → List Space
  | .frame => blockSpaces
  | _ => []

/-! The registers and parameters after the writes the commands share. -/

section Writes
variable (s : State)

@[simp] theorem writeColorPlanes_csr : (writeColorPlanes s).csr = s.csr := rfl
@[simp] theorem writeColorPlanes_cfg : (writeColorPlanes s).cfg = s.cfg := rfl
@[simp] theorem writeSubsampled_csr (pl : Plane) : (writeSubsampled pl s).csr = s.csr := rfl
@[simp] theorem writeSubsampled_cfg (pl : Plane) : (writeSubsampled pl s).cfg = s.cfg := rfl
@[simp] theorem writeAllPlanes_csr : (writeAllPlanes s).csr = s.csr := rfl
@[simp] theorem writeAllPlanes_cfg : (writeAllPlanes s).cfg = s.cfg := rfl
@[simp] theorem State.loadTable_csr (t : Nat → Int) : (s.loadTable t).csr = (s.setValid [.qt]).csr := rfl
@[simp] theorem State.loadTable_cfg (t : Nat → Int) : (s.loadTable t).cfg = s.cfg := rfl
@[simp] theorem State.quantizeBy_csr (t : Nat → Int) : (s.quantizeBy t).csr = (s.setValid [.qc]).csr := rfl
@[simp] theorem State.quantizeBy_cfg (t : Nat → Int) : (s.quantizeBy t).cfg = s.cfg := rfl
@[simp] theorem writeBlock_csr (pl : Plane) (i j : Nat) : (writeBlock pl i j s).csr =
    { s.csr with
      valid := s.csr.valid ||| validBits blockSpaces
      tokn := BitVec.ofNat 32 (s.blockTokens pl i j).length } := by
  simp [writeBlock]
@[simp] theorem writeBlock_cfg (pl : Plane) (i j : Nat) : (writeBlock pl i j s).cfg = s.cfg :=
  (writeBlock_sameModelFields s pl i j).1
@[simp] theorem writeFrame_cfg : (writeFrame s).cfg = s.cfg := (writeFrame_sameModelFields s).1
@[simp] theorem State.loadOutput_cfg (ty tcb tcr : List (Int × Nat)) : (s.loadOutput ty tcb tcr).cfg = s.cfg :=
  (s.loadOutput_sameModelFields ty tcb tcr).1
@[simp] theorem State.loadOutput_csr (ty tcb tcr : List (Int × Nat)) : (s.loadOutput ty tcb tcr).csr =
    { s.csr with
      valid := (s.csr.valid ||| validBits [.py, .pcb, .pcr, .scb, .scr, .out]) &&& ~~~ validBits blockSpaces
      tokn := 0
      outn := BitVec.ofNat 32 (ty ++ tcb ++ tcr).length
      pstart0 := 0
      pstart1 := BitVec.ofNat 32 ty.length
      pstart2 := BitVec.ofNat 32 (ty ++ tcb).length } := by
  simp [State.loadOutput]

/-! Each of these writes keeps the spaces it does not name. -/

variable {s} {sp : Space}

theorem State.get_fillBits_ne {sp' : Space} (vs : List (BitVec sp'.width)) (h : sp ≠ sp') :
    (s.fillBits sp' vs).mem.get sp = s.mem.get sp := Memory.get_set_ne _ _ h

theorem State.get_fill_ne {sp' : Space} (n : Nat) (f : Nat → Int) (h : sp ≠ sp') :
    (s.fill sp' n f).mem.get sp = s.mem.get sp := State.get_fillBits_ne _ h

theorem State.get_fillPlane_ne {sp' : Space} (rows cols : Nat) (f : Nat → Nat → Int) (h : sp ≠ sp') :
    (s.fillPlane sp' rows cols f).mem.get sp = s.mem.get sp := State.get_fill_ne _ _ h

theorem writeColorPlanes_get_ne (h : sp ∉ [.py, .pcb, .pcr]) :
    (writeColorPlanes s).mem.get sp = s.mem.get sp := by
  simp only [List.mem_cons, List.not_mem_nil, or_false, not_or] at h
  obtain ⟨hpy, hpcb, hpcr⟩ := h
  rw [writeColorPlanes, State.get_fillPlane_ne _ _ _ hpcr, State.get_fillPlane_ne _ _ _ hpcb,
    State.get_fillPlane_ne _ _ _ hpy]

theorem writeSubsampled_get_ne (pl : Plane) (h : sp ≠ subDest pl) :
    (writeSubsampled pl s).mem.get sp = s.mem.get sp := State.get_fillPlane_ne _ _ _ h

theorem State.loadTokens_get_ne (ts : List (Int × Nat)) (h : sp ≠ .tok) :
    (s.loadTokens ts).mem.get sp = s.mem.get sp := State.get_fillBits_ne _ h

theorem State.loadTable_get_ne (t : Nat → Int) (h : sp ≠ .qt) :
    (s.loadTable t).mem.get sp = s.mem.get sp := State.get_fill_ne _ _ h

theorem State.quantizeBy_get_ne (t : Nat → Int) (h : sp ≠ .qc) :
    (s.quantizeBy t).mem.get sp = s.mem.get sp := State.get_fill_ne _ _ h

theorem writeBlock_get_ne (pl : Plane) (i j : Nat) (h : sp ∉ blockSpaces) :
    (writeBlock pl i j s).mem.get sp = s.mem.get sp := by
  simp only [blockSpaces, List.mem_cons, List.not_mem_nil, or_false, not_or] at h
  obtain ⟨hblk, hcoef, hqt, hqc, hzz, htok⟩ := h
  rw [writeBlock, State.setValid_mem, State.loadTokens_get_ne _ htok, State.get_fill_ne _ _ hzz,
    State.get_fill_ne _ _ hqc, State.get_fill_ne _ _ hqt, State.get_fill_ne _ _ hcoef, State.get_fill_ne _ _ hblk]

theorem State.loadOutput_get_ne (ty tcb tcr : List (Int × Nat)) (hout : sp ≠ .out) (hblk : sp ∉ blockSpaces) :
    (s.loadOutput ty tcb tcr).mem.get sp = s.mem.get sp := by
  rw [State.loadOutput, State.clearValid_mem, State.setValid_mem, State.get_forget_ne _ hblk,
    State.get_fillBits_ne _ hout]

theorem writeFrame_get_ne (hout : sp ∉ [.py, .pcb, .pcr, .scb, .scr, .out]) (hblk : sp ∉ blockSpaces) :
    (writeFrame s).mem.get sp = s.mem.get sp := by
  simp only [List.mem_cons, List.not_mem_nil, or_false, not_or] at hout
  obtain ⟨hpy, hpcb, hpcr, hscb, hscr, hout⟩ := hout
  rw [writeFrame, State.loadOutput_get_ne _ _ _ hout hblk, writeAllPlanes, writeSubsampled_get_ne _ hscr,
    writeSubsampled_get_ne _ hscb, writeColorPlanes_get_ne (by simp [hpy, hpcb, hpcr])]

end Writes

theorem and_not_validBits_nil (v : BitVec 13) : v &&& ~~~ validBits [] = v := BitVec.and_allOnes

section Effect
variable (s : State) (i : Instr)

/-- The registers a completing command keeps: all but VALID, TOKN, OUTN and the plane starts. -/
theorem effect_csr : (effect s i).csr = { s.csr with
    valid := (s.csr.valid ||| validBits (outputs i)) &&& ~~~ validBits (invalidates i)
    tokn := (effect s i).csr.tokn
    outn := (effect s i).csr.outn
    pstart0 := (effect s i).csr.pstart0
    pstart1 := (effect s i).csr.pstart1
    pstart2 := (effect s i).csr.pstart2 } := by
  cases i with
  | frame => simp [effect, outputs, invalidates, writeFrame]
  | qnt kind res =>
    simp only [invalidates, and_not_validBits_nil]
    cases res with
    | false => simp [effect, outputs, quantizeFresh, validBits, BitVec.or_assoc]
    | true => simp [effect, outputs]
  | block pl =>
    simp only [invalidates, and_not_validBits_nil]
    exact writeBlock_csr s pl _ _
  | _ =>
    simp only [invalidates, and_not_validBits_nil]
    simp [effect, outputs]

theorem effect_cfg : (effect s i).cfg = s.cfg := by
  cases i with
  | block pl => exact writeBlock_cfg s pl _ _
  | frame => exact writeFrame_cfg s
  | qnt kind res => cases res <;> rfl
  | _ => rfl

/-- A completing command keeps every space it neither writes nor makes unspecified. -/
theorem effect_get_ne {sp : Space} (hout : sp ∉ outputs i) (hinv : sp ∉ invalidates i) :
    (effect s i).mem.get sp = s.mem.get sp := by
  cases i with
  | csc => exact writeColorPlanes_get_ne hout
  | sub pl => exact writeSubsampled_get_ne pl (List.ne_of_not_mem_cons hout)
  | qtbl kind => exact State.loadTable_get_ne _ (List.ne_of_not_mem_cons hout)
  | qnt kind res =>
    cases res with
    | false =>
      obtain ⟨hqt, hqc⟩ := List.ne_and_not_mem_of_not_mem_cons hout
      exact (State.quantizeBy_get_ne _ (List.ne_of_not_mem_cons hqc)).trans (State.loadTable_get_ne _ hqt)
    | true => exact State.quantizeBy_get_ne _ (List.ne_of_not_mem_cons hout)
  | rle => exact State.loadTokens_get_ne _ (List.ne_of_not_mem_cons hout)
  | block pl => exact writeBlock_get_ne pl _ _ hout
  | frame => exact writeFrame_get_ne hout hinv
  | blkx pl => exact State.get_fill_ne _ _ (List.ne_of_not_mem_cons hout)
  | dct => exact State.get_fill_ne _ _ (List.ne_of_not_mem_cons hout)
  | zz => exact State.get_fill_ne _ _ (List.ne_of_not_mem_cons hout)

end Effect

end Sys2Proof.Machine
end

section
/-! The invariant of Safety.lean is kept by every command and every host action. -/

namespace Sys2Proof.Machine

open Sys2Proof.Claims

/-! ### Number of tokens -/

theorem runs_ne_nil {l : List Int} (h : l ≠ []) : runs l ≠ [] := by
  cases l with
  | nil => exact absurd rfl h
  | cons v rest =>
    simp only [runs]
    cases runs rest with
    | nil => simp [consRun]
    | cons r rs =>
      simp only [consRun]
      split <;> simp

/-- A block has at least one run and the sentinel, at most 64 runs and the sentinel (43_zigzag_rle.md R164). -/
theorem rle_list64_length (f : Nat → Int) : 2 ≤ (rle (list64 f)).length ∧ (rle (list64 f)).length ≤ 65 := by
  have hlen : (list64 f).length = 64 := by simp [list64]
  have hpos := List.length_pos_iff.2 (runs_ne_nil (List.ne_nil_of_length_eq_add_one hlen))
  have hle := rle_length_le (list64 f)
  simp only [rle, List.length_append, List.length_singleton] at hle ⊢
  omega

theorem blockOffsets_length (rows cols : Nat) : (blockOffsets rows cols).length = ceilDiv rows 8 * ceilDiv cols 8 := by
  simp [blockOffsets]

theorem State.planeTokens_length_le (s : State) (pl : Plane) :
    (s.planeTokens pl).length ≤ 65 * (ceilDiv (s.rows pl) 8 * ceilDiv (s.cols pl) 8) := by
  have hblock : ∀ n ∈ (blockOffsets (s.rows pl) (s.cols pl)).map fun ij => (s.blockTokens pl ij.1 ij.2).length,
      n ≤ 65 := by
    intro n hn
    obtain ⟨ij, -, rfl⟩ := List.mem_map.1 hn
    exact (rle_list64_length _).2
  have hsum := List.sum_le_card_nsmul _ 65 hblock
  rw [List.length_map, blockOffsets_length, smul_eq_mul, Nat.mul_comm] at hsum
  rwa [State.planeTokens, List.length_flatMap]

/-! ### The image and its tokens fit the spaces -/

theorem ceilDiv_mono {m n : Nat} (h : m ≤ n) (d : Nat) : ceilDiv m d ≤ ceilDiv n d := by
  unfold ceilDiv
  gcongr

theorem ceilDiv_mul_mono {h h' w w' : Nat} (hh : h ≤ h') (hw : w ≤ w') (d : Nat) :
    ceilDiv h d * ceilDiv w d ≤ ceilDiv h' d * ceilDiv w' d :=
  Nat.mul_le_mul (ceilDiv_mono hh d) (ceilDiv_mono hw d)

/-- The registers that count tokens are wide enough for OUTCAP (10_state.md R51). -/
theorem outCap_lt (c : Config) : outCap c < 2 ^ 32 := by
  have hh := c.maxH_legal.2
  have hw := c.maxW_legal.2
  have hfull := ceilDiv_mul_mono hh hw 8
  have hhalf := ceilDiv_mul_mono (ceilDiv_mono hh 2) (ceilDiv_mono hw 2) 8
  simp only [ceilDiv] at hfull hhalf
  simp only [outCap, ceilDiv]
  omega

section Fits
variable {s : State} (hgeom : s.geomLegal)
include hgeom

theorem State.imgW_le : s.imgW ≤ s.cfg.maxW := by
  obtain ⟨⟨-, hw⟩, -⟩ := hgeom
  simp only [State.imgW]
  omega

theorem State.imgH_le : s.imgH ≤ s.cfg.maxH := by
  obtain ⟨-, -, hh⟩ := hgeom
  simp only [State.imgH]
  omega

theorem State.plane_fits : s.imgH * s.imgW ≤ s.cfg.maxH * s.cfg.maxW :=
  Nat.mul_le_mul (State.imgH_le hgeom) (State.imgW_le hgeom)

theorem State.subsampled_fits (pl : Plane) :
    ceilDiv s.imgH 2 * ceilDiv s.imgW 2 ≤ spaceSize s.cfg (subDest pl) := by
  have := ceilDiv_mul_mono (State.imgH_le hgeom) (State.imgW_le hgeom) 2
  cases pl <;> exact this

/-- The tokens of a whole image fit OUT (44_pipeline.md R184). -/
theorem State.imageTokens_fit :
    (s.planeTokens .y ++ s.planeTokens .scb ++ s.planeTokens .scr).length ≤ outCap s.cfg := by
  have hh := State.imgH_le hgeom
  have hw := State.imgW_le hgeom
  have hfull := ceilDiv_mul_mono hh hw 8
  have hhalf := ceilDiv_mul_mono (ceilDiv_mono hh 2) (ceilDiv_mono hw 2) 8
  have hy := s.planeTokens_length_le .y
  have hscb := s.planeTokens_length_le .scb
  have hscr := s.planeTokens_length_le .scr
  simp only [State.rows, State.cols] at hy hscb hscr
  simp only [List.length_append, outCap]
  omega

end Fits

/-! ### Canonical memory -/

/-- `State.fill_wf` for any configuration, so that the writes of one command chain. -/
theorem State.fill_wf_config {c : Config} {s : State} {sp : Space} {n : Nat} (f : Nat → Int)
    (h : s.mem.wf c = true) (hn : n ≤ spaceSize c sp) : (s.fill sp n f).mem.wf c = true :=
  State.fill_wf (s := { s with cfg := c }) f h hn

theorem State.fillPlane_wf_config {c : Config} {s : State} {sp : Space} {rows cols : Nat} (f : Nat → Nat → Int)
    (h : s.mem.wf c = true) (hn : rows * cols ≤ spaceSize c sp) : (s.fillPlane sp rows cols f).mem.wf c = true :=
  State.fill_wf_config _ h hn

theorem State.loadTokens_wf_config {c : Config} {s : State} {ts : List (Int × Nat)} (h : s.mem.wf c = true)
    (hts : ts.length ≤ 65) : (s.loadTokens ts).mem.wf c = true :=
  State.fillBits_wf (s := { s with cfg := c }) (sp := .tok) h (by rwa [List.length_map])

section CanonicalMemory
variable {s : State} (hwf : s.mem.wf s.cfg = true)
include hwf

theorem writeColorPlanes_wf (hgeom : s.geomLegal) : (writeColorPlanes s).mem.wf s.cfg = true := by
  have hfit := State.plane_fits hgeom
  have hpy := State.fillPlane_wf_config (sp := .py) (s.convertPixel cscY) hwf hfit
  have hpcb := State.fillPlane_wf_config (sp := .pcb) (s.convertPixel cscCb) hpy hfit
  exact State.fillPlane_wf_config _ hpcb hfit

theorem writeSubsampled_wf (pl : Plane) (hgeom : s.geomLegal) : (writeSubsampled pl s).mem.wf s.cfg = true :=
  State.fillPlane_wf _ hwf (State.subsampled_fits hgeom pl)

theorem writeAllPlanes_wf (hgeom : s.geomLegal) : (writeAllPlanes s).mem.wf s.cfg = true := by
  have hplanes := writeColorPlanes_wf hwf hgeom
  have hscb := writeSubsampled_wf (s := writeColorPlanes s) hplanes .cb hgeom
  exact writeSubsampled_wf (s := writeSubsampled .cb (writeColorPlanes s)) hscb .cr hgeom

theorem quantizeFresh_wf (kind : Kind) : (quantizeFresh kind s).mem.wf s.cfg = true := by
  have hqt := State.fill_wf_config (sp := .qt) (s.freshTable kind) hwf (Nat.le_refl 64)
  exact State.fill_wf_config (s := s.loadTable (s.freshTable kind)) _ hqt (Nat.le_refl 64)

theorem writeBlock_wf (pl : Plane) (i j : Nat) : (writeBlock pl i j s).mem.wf s.cfg = true := by
  have hblk := State.fill_wf_config (sp := .blk) (s.blkx pl i j) hwf (Nat.le_refl 64)
  have hcoef := State.fill_wf_config (sp := .coef) (s.blockCoef pl i j) hblk (Nat.le_refl 64)
  have hqt := State.fill_wf_config (sp := .qt) (s.blockTable pl) hcoef (Nat.le_refl 64)
  have hqc := State.fill_wf_config (sp := .qc) (s.blockQuant pl i j) hqt (Nat.le_refl 64)
  have hzz := State.fill_wf_config (sp := .zz) (s.blockZigzag pl i j) hqc (Nat.le_refl 64)
  exact State.loadTokens_wf_config hzz (rle_list64_length _).2

theorem State.loadOutput_wf {ty tcb tcr : List (Int × Nat)} (h : (ty ++ tcb ++ tcr).length ≤ outCap s.cfg) :
    (s.loadOutput ty tcb tcr).mem.wf s.cfg = true := by
  have hout := State.fillBits_wf (sp := .out) (vs := (ty ++ tcb ++ tcr).map tokWord) hwf
    (by rwa [List.length_map])
  exact State.forget_wf (s := s.fillBits .out ((ty ++ tcb ++ tcr).map tokWord)) blockSpaces hout

end CanonicalMemory

/-- What FRAME writes to OUT fits it. -/
theorem writeAllPlanes_tokens_fit {s : State} (hgeom : s.geomLegal) :
    ((writeAllPlanes s).planeTokens .y ++ (writeAllPlanes s).planeTokens .scb
      ++ (writeAllPlanes s).planeTokens .scr).length ≤ outCap (writeAllPlanes s).cfg :=
  State.imageTokens_fit ((State.geomLegal_congr (writeAllPlanes_csr s) (writeAllPlanes_cfg s)).2 hgeom)

theorem writeFrame_wf {s : State} (hwf : s.mem.wf s.cfg = true) (hgeom : s.geomLegal) :
    (writeFrame s).mem.wf s.cfg = true := by
  have hplanes : (writeAllPlanes s).mem.wf (writeAllPlanes s).cfg = true := by
    rw [writeAllPlanes_cfg]
    exact writeAllPlanes_wf hwf hgeom
  rw [← writeAllPlanes_cfg s]
  exact State.loadOutput_wf hplanes (writeAllPlanes_tokens_fit hgeom)

theorem effect_wf {s : State} {i : Instr} (hwf : s.mem.wf s.cfg = true)
    (hgeom : usesGeometry i = true → s.geomLegal) : (effect s i).mem.wf s.cfg = true := by
  cases i with
  | csc => exact writeColorPlanes_wf hwf (hgeom rfl)
  | sub pl => exact writeSubsampled_wf hwf pl (hgeom rfl)
  | blkx pl => exact State.fill_wf _ hwf (Nat.le_refl 64)
  | dct => exact State.fill_wf _ hwf (Nat.le_refl 64)
  | qtbl kind => exact State.fill_wf _ hwf (Nat.le_refl 64)
  | qnt kind res =>
    cases res with
    | false => exact quantizeFresh_wf hwf kind
    | true => exact State.fill_wf _ hwf (Nat.le_refl 64)
  | zz => exact State.fill_wf _ hwf (Nat.le_refl 64)
  | rle => exact State.loadTokens_wf_config hwf (rle_list64_length _).2
  | block pl => exact writeBlock_wf hwf pl _ _
  | frame => exact writeFrame_wf hwf (hgeom rfl)

/-! ### The counts of tokens -/

theorem State.tokenCountOk_of_rle {t : State} {f : Nat → Int}
    (h : t.csr.tokn = BitVec.ofNat 32 (rle (list64 f)).length) : t.tokenCountOk := by
  have hlen := rle_list64_length f
  rw [State.tokenCountOk, h, BitVec.toNat_ofNat]
  omega

theorem effect_tokenCountOk {s : State} {i : Instr} (h : s.tokenCountOk) : (effect s i).tokenCountOk := by
  cases i with
  | rle => exact State.tokenCountOk_of_rle rfl
  | block pl =>
    exact State.tokenCountOk_of_rle (congrArg Csrs.tokn (writeBlock_csr s pl s.offI s.offJ))
  | frame => exact .inl (by simp [effect, writeFrame])
  | qnt kind res => cases res <;> exact h
  | _ => exact h

theorem State.loadOutput_outputOk {s : State} {ty tcb tcr : List (Int × Nat)}
    (h : (ty ++ tcb ++ tcr).length ≤ outCap s.cfg) : (s.loadOutput ty tcb tcr).outputOk := by
  have hcap := outCap_lt s.cfg
  simp only [List.length_append] at h
  simp only [State.outputOk, State.loadOutput_csr, State.loadOutput_cfg, BitVec.toNat_ofNat, List.length_append,
    true_and]
  omega

theorem effect_outputOk {s : State} {i : Instr} (h : s.outputOk) (hgeom : usesGeometry i = true → s.geomLegal) :
    (effect s i).outputOk := by
  cases i with
  | frame => exact State.loadOutput_outputOk (s := writeAllPlanes s) (writeAllPlanes_tokens_fit (hgeom rfl))
  | qnt kind res => cases res <;> exact h
  | block pl => simpa [State.outputOk, effect] using h
  | _ => exact h

/-! ### Commands keep the invariant -/

theorem State.Inv.raise {s : State} (h : s.Inv) {c : Cause} {info : Word} (hinfo : faultDetailOk info c) :
    (s.raise c info).Inv := by
  obtain ⟨hmem, -, htok, hout⟩ := h
  refine ⟨hmem, ⟨nofun, fun _ => ?_⟩, htok, hout⟩
  cases c with
  | invalidInput => exact .inl ⟨rfl, hinfo⟩
  | arithmeticFault => exact .inr (.inl ⟨rfl, hinfo⟩)
  | illegalCommand => exact .inr (.inr (.inl ⟨rfl, hinfo⟩))
  | notReady => exact .inr (.inr (.inr ⟨rfl, hinfo⟩))

theorem State.Inv.effect {s : State} (h : s.Inv) {i : Instr} (hgeom : usesGeometry i = true → s.geomLegal) :
    (effect s i).Inv := by
  obtain ⟨hmem, hfault, htok, hout⟩ := h
  refine ⟨?_, ?_, effect_tokenCountOk htok, effect_outputOk hout hgeom⟩
  · rw [effect_cfg]
    exact effect_wf hmem hgeom
  · rw [State.faultRecordOk, effect_csr]
    exact hfault

theorem State.Inv.exec {s t : State} (h : s.Inv) {i : Instr} (ht : exec i s = .next t) : t.Inv := by
  obtain ⟨c, info, hinfo, rfl⟩ | ⟨hgeom, rfl⟩ := ends_of_exec ht
  · exact h.raise hinfo
  · exact h.effect hgeom

theorem State.Inv.hostCmd {s t : State} (h : s.Inv) {cw : Word} (ht : hostCmd cw s = .next t) : t.Inv := by
  unfold Machine.hostCmd at ht
  split at ht
  · injection ht with ht
    exact ht ▸ h
  · split at ht
    · rename_i hdecode
      injection ht with ht
      rw [← ht]
      exact h.raise (c := .illegalCommand) fun i hi => by simp [hdecode] at hi
    · exact h.exec ht

/-! ### Every step keeps the invariant -/

/-- A state with all its registers and spaces reset meets the invariant, whatever else it holds. -/
theorem State.inv_of_reset {s : State} (hcsr : s.csr = Csrs.reset) (hmem : s.mem = Memory.unspecified) : s.Inv := by
  refine ⟨hmem ▸ Memory.wf_unspecified _, ⟨fun _ => ?_, fun h => ?_⟩, .inl ?_, ?_⟩
  · simp [hcsr, Csrs.reset]
  · simp [hcsr, Csrs.reset] at h
  · simp [hcsr, Csrs.reset]
  · simp [State.outputOk, hcsr, Csrs.reset]

theorem State.Inv.writeCsr {s : State} (h : s.Inv) (n : Nat) (v : Word) : (writeCsr s n v).Inv := by
  obtain ⟨hmem, hfault, htok, hout⟩ := h
  obtain ⟨hstatus, hfcode, hfinfo, htokn, houtn, hp0, hp1, hp2⟩ := writeCsr_readOnly s n v
  refine ⟨by simpa using hmem, ?_, ?_, ?_⟩
  · simpa only [State.faultRecordOk, hstatus, hfcode, hfinfo] using hfault
  · simpa only [State.tokenCountOk, htokn] using htok
  · simpa only [State.outputOk, houtn, hp0, hp1, hp2, writeCsr_cfg] using hout

theorem State.Inv.hostWriteMem {s : State} (h : s.Inv) (sp : Space) (i : Nat) (v : Int) :
    (hostWriteMem s sp i v).Inv := by
  obtain ⟨hmem, hfault, htok, hout⟩ := h
  refine ⟨by simpa using hostWriteMem_wf sp i v hmem, ?_, ?_, ?_⟩
  · simpa only [State.faultRecordOk, hostWriteMem_csr] using hfault
  · simpa only [State.tokenCountOk, hostWriteMem_csr] using htok
  · simpa only [State.outputOk, hostWriteMem_csr, hostWriteMem_cfg] using hout

theorem State.Inv.perform {s t : State} (h : s.Inv) {a : HostAction} (ht : perform a s = .next t) : t.Inv := by
  cases a with
  | command cw => exact h.hostCmd ht
  | reset =>
    injection ht with ht
    exact ht ▸ State.inv_of_reset rfl rfl
  | writeCsr n v =>
    injection ht with ht
    exact ht ▸ h.writeCsr n v
  | writeMem sp i v =>
    injection ht with ht
    exact ht ▸ h.hostWriteMem sp i v
  | readCsr n =>
    injection ht with ht
    exact ht ▸ ⟨h.memory, h.faultRecord, h.tokenCount, h.output⟩
  | readMem sp i =>
    injection ht with ht
    exact ht ▸ ⟨h.memory, h.faultRecord, h.tokenCount, h.output⟩

theorem State.Inv.advance {s : State} (h : s.Inv) (rest : List HostAction) : (s.advance rest).Inv :=
  ⟨h.memory, h.faultRecord, h.tokenCount, h.output⟩

/-- Settles O40: taking an action off the queue keeps the invariant, and so does performing it. -/
theorem stepKeepsInvariant : Obligations.StepKeepsInvariant := by
  intro s t h ht
  cases hp : s.pending with
  | nil =>
    rw [step_nil hp] at ht
    injection ht with ht
    exact ht ▸ h
  | cons a rest =>
    rw [step_cons hp] at ht
    exact (h.advance rest).perform ht

/-- Settles O41: reset sets every register and leaves every space unwritten. -/
theorem resetSatisfiesInvariant : Obligations.ResetSatisfiesInvariant :=
  State.inv_of_reset rfl rfl

end Sys2Proof.Machine
end

section
/-! What commands leave to the host: the registers it alone writes, PIX, and the VALID bits it has set (10_state.md R22
to R33, R41). -/

namespace Sys2Proof.Machine

open Sys2Proof.Claims

/-- Bit `vbit sp` of a mask of spaces. -/
theorem getLsbD_validBits (l : List Space) (sp : Space) : (validBits l).getLsbD (vbit sp) = decide (sp ∈ l) := by
  induction l with
  | nil => simp [validBits]
  | cons x rest ih =>
    have hx : (1#13 <<< vbit x).getLsbD (vbit sp) = decide (sp = x) := by
      cases x <;> cases sp <;> rfl
    rw [validBits, BitVec.getLsbD_or, hx, ih]
    simp

theorem pix_not_mem_outputs (i : Instr) : .pix ∉ outputs i := by
  cases i with
  | sub pl => cases pl <;> simp [outputs, subDest]
  | qnt kind res => cases res <;> simp [outputs]
  | _ => simp [outputs, blockSpaces]

theorem pix_not_mem_invalidates (i : Instr) : .pix ∉ invalidates i := by
  cases i <;> simp [invalidates, blockSpaces]

theorem effect_valid (s : State) (i : Instr) :
    (effect s i).csr.valid = (s.csr.valid ||| validBits (outputs i)) &&& ~~~ validBits (invalidates i) :=
  congrArg Csrs.valid (effect_csr s i)

/-- Settles O43: a fault writes STATUS, FCODE and FINFO only, and no effect writes PIX or moves its VALID bit. -/
theorem commandsKeepHostInputs : Obligations.CommandsKeepHostInputs := by
  intro i s t ht
  obtain ⟨c, info, -, rfl⟩ | ⟨-, rfl⟩ := ends_of_exec ht
  · exact ⟨rfl, rfl, rfl, rfl, rfl, rfl, rfl, rfl⟩
  · have hpix : (effect s i).mem.pix = s.mem.pix :=
      effect_get_ne s i (pix_not_mem_outputs i) (pix_not_mem_invalidates i)
    have hbit : (effect s i).csr.valid.getLsbD 0 = s.csr.valid.getLsbD 0 := by
      have hset := getLsbD_validBits (outputs i) .pix
      have hclear := getLsbD_validBits (invalidates i) .pix
      simp only [vbit, pix_not_mem_outputs, pix_not_mem_invalidates, decide_false] at hset hclear
      simp only [effect_valid, BitVec.getLsbD_and, BitVec.getLsbD_or, BitVec.getLsbD_not, hset, hclear]
      simp
    rw [hpix, hbit, effect_csr]
    exact ⟨rfl, rfl, rfl, rfl, rfl, rfl, rfl, rfl⟩

theorem invalidates_of_ne_frame {i : Instr} (h : i ≠ .frame) : invalidates i = [] := by
  cases i with
  | frame => exact absurd rfl h
  | _ => rfl

theorem and_or_absorb (v m : BitVec 13) : v &&& (v ||| m) = v := by
  apply BitVec.eq_of_getLsbD_eq
  intro k hk
  cases h : v.getLsbD k <;> simp [h]

/-- Settles O44: an effect clears the VALID bits of the spaces it makes unspecified, the per-block spaces for FRAME and
none for every other command; a fault moves no VALID bit. -/
theorem onlyFrameClearsValidBits : Obligations.OnlyFrameClearsValidBits := by
  intro i s t ht
  obtain ⟨c, info, -, rfl⟩ | ⟨-, rfl⟩ := ends_of_exec ht
  · simp
  · refine ⟨fun hi => ?_, fun hi => ?_⟩
    · rw [effect_valid, invalidates_of_ne_frame hi, and_not_validBits_nil]
      exact and_or_absorb _ _
    · have hkept : ~~~ validBits blockSpaces &&& 0x103F = 0x103F := by decide
      rw [effect_valid, hi, ← BitVec.and_assoc, and_or_absorb, BitVec.and_assoc]
      exact congrArg _ hkept

end Sys2Proof.Machine
end

section
/-! The bounds of 10_state.md R58 on what each unit computes, as exact numbers. -/

namespace Sys2Proof.Machine

variable (s : State)

theorem State.sub2x2_bounds {src : Space} (h : src = .pcb ∨ src = .pcr) (r c : Nat) :
    -(2 ^ 30) ≤ s.sub2x2 src r c ∧ s.sub2x2 src r c ≤ 2 ^ 30 - 4 := by
  have h00 := s.sampleOrZero_bound h (2 * r) (2 * c)
  have h01 := s.sampleOrZero_bound h (2 * r) (2 * c + 1)
  have h10 := s.sampleOrZero_bound h (2 * r + 1) (2 * c)
  have h11 := s.sampleOrZero_bound h (2 * r + 1) (2 * c + 1)
  unfold State.sub2x2
  omega

/-- The least sample is 4 times the least format-P element; the greatest is the greatest format-S element. -/
theorem planeScale_mul_read_bounds (pl : Plane) (k : Nat) :
    -(2 ^ 30) ≤ planeScale pl * s.read (planeSpace pl) k
      ∧ planeScale pl * s.read (planeSpace pl) k ≤ 2 ^ 30 - 1 := by
  have h := s.read_fits (planeSpace pl) k
  cases pl <;> simp [elemFits, spaceSigned, planeSpace, planeScale] at h ⊢ <;> omega

theorem State.blkx_bounds (pl : Plane) (i j k : Nat) :
    -1585741824 ≤ s.blkx pl i j k ∧ s.blkx pl i j k ≤ 561741823 := by
  have h := planeScale_mul_read_bounds s pl ((i + k / 8) * s.cols pl + (j + k % 8))
  simp only [State.blkx]
  split <;> omega

theorem dct_read_blk_bound (k : Nat) : |dct (s.read .blk) k| ≤ 2 ^ 125 :=
  dct_bound (fun k _ => elemFits_blk_abs (s.read_fits .blk k)) k

/-- Settles O27: each bound follows from the width of the elements read and the greatest entry of a table. -/
theorem resultsFitTheirElements : Obligations.ResultsFitTheirElements := by
  intro s
  refine ⟨fun src hsrc r c => s.sub2x2_bounds (by simpa using hsrc) r c, s.blkx_bounds,
    fun k _ => dct_read_blk_bound s k, fun kind quality c255 i hi => ?_, fun rnd t ht k _ => ?_⟩
  · have hbase := baseEntry_range s.cfg kind hi
    have htable := qtable_range s.cfg kind quality c255 hi
    omega
  · exact abs_le.1 (quant_bound rnd (dct_read_blk_bound s k) ht)

end Sys2Proof.Machine
end

section
/-! The host's access to the control registers, by number (10_state.md R21, R31, R32, R38), and the read-only tables
(R52, R53). -/

namespace Sys2Proof.Machine

open Sys2Proof.Claims

/-! ### The registers as a list -/

/-- The registers in the order of their numbers, each as the host reads it (R21). -/
def registers (s : State) : List Word :=
  [s.csr.ctrl.setWidth 32, s.csr.status.setWidth 32, s.csr.fcode, s.csr.finfo, s.csr.width, s.csr.height,
    s.csr.quality, s.csr.offi, s.csr.offj, s.csr.valid.setWidth 32, s.csr.tokn, s.csr.outn, s.csr.pstart0,
    s.csr.pstart1, s.csr.pstart2]

theorem registerValue_eq (s : State) (n : Nat) : registerValue s n = (registers s)[n]?.getD 0 := rfl

/-- Number 15 and every number above it are reserved (R32). -/
theorem registerValue_of_ge (s : State) {n : Nat} (h : 15 ≤ n) : registerValue s n = 0 := by
  rw [registerValue_eq, List.getElem?_eq_none (by simpa [registers] using h), Option.getD_none]

theorem readCsr_eq_registerValue (s : State) (n : Nat) : readCsr s n = registerValue s n := by
  by_cases hn : n < 15
  · interval_cases n <;> rfl
  · rw [registerValue_of_ge s (Nat.not_lt.1 hn)]
    unfold readCsr
    split
    case h_16 => rfl
    all_goals omega

/-- Dropping the reserved bits of a written word is a mask (R38). -/
theorem setWidth_setWidth_eq_and (v : Word) {w : Nat} (h : w ≤ 32) :
    (v.setWidth w).setWidth 32 = v &&& BitVec.ofNat 32 (2 ^ w - 1) := by
  have hpow : 2 ^ w ≤ 2 ^ 32 := Nat.pow_le_pow_right (by decide) h
  have hpos : 0 < 2 ^ w := Nat.two_pow_pos w
  have hmod := Nat.mod_lt v.toNat hpos
  apply BitVec.eq_of_toNat_eq
  rw [BitVec.toNat_and, BitVec.toNat_ofNat, Nat.mod_eq_of_lt (by omega : 2 ^ w - 1 < 2 ^ 32),
    Nat.and_two_pow_sub_one_eq_mod, BitVec.toNat_setWidth, BitVec.toNat_setWidth, Nat.mod_eq_of_lt (by omega)]

/-- The defined bits of a value written to register `n`. -/
def definedBits (n : Nat) (v : Word) : Word := if n = 0 then v &&& 0x3 else if n = 9 then v &&& 0x1FFF else v

theorem registers_writeCsr_geometry (s : State) (v : Word) {n : Nat} (h : n = 4 ∨ n = 5) :
    registers (writeCsr s n v)
      = ((registers s).set n v).set 9 ((s.csr.valid &&& ~~~ validBits geometrySpaces).setWidth 32) := by
  obtain rfl | rfl := h <;> rfl

theorem registers_writeCsr (s : State) (v : Word) {n : Nat} (h : n ∈ [0, 6, 7, 8, 9]) :
    registers (writeCsr s n v) = (registers s).set n (definedBits n v) := by
  simp only [List.mem_cons, List.not_mem_nil, or_false] at h
  obtain rfl | rfl | rfl | rfl | rfl := h
  · simp [registers, writeCsr, definedBits, setWidth_setWidth_eq_and]
  · rfl
  · rfl
  · rfl
  · simp [registers, writeCsr, definedBits, setWidth_setWidth_eq_and]

theorem writeCsr_ignored (s : State) (v : Word) {n : Nat} (h : n ∉ [0, 4, 5, 6, 7, 8, 9]) : writeCsr s n v = s := by
  simp only [List.mem_cons, List.not_mem_nil, or_false, not_or] at h
  obtain ⟨h0, h4, h5, h6, h7, h8, h9⟩ := h
  -- the last equation of `writeCsr` asks for these seven
  simp only [writeCsr]

/-- What a register reads after a write to it. -/
theorem registerValue_writeCsr_same (s : State) (n : Nat) (v : Word) :
    registerValue (writeCsr s n v) n = (if n = 0 then v &&& 0x3
      else if n = 9 then v &&& 0x1FFF
      else if n ∈ [4, 5, 6, 7, 8] then v
      else registerValue s n) := by
  by_cases hgeom : n = 4 ∨ n = 5
  · rw [registerValue_eq, registers_writeCsr_geometry s v hgeom]
    obtain rfl | rfl := hgeom <;> rfl
  · by_cases hn : n ∈ [0, 6, 7, 8, 9]
    · rw [registerValue_eq, registers_writeCsr s v hn]
      simp only [List.mem_cons, List.not_mem_nil, or_false] at hn
      obtain rfl | rfl | rfl | rfl | rfl := hn <;> rfl
    · simp only [List.mem_cons, List.not_mem_nil, or_false, not_or] at hgeom hn
      rw [writeCsr_ignored s v (by simp; omega)]
      simp [hgeom, hn]

theorem registerValue_writeCsr_ne (s : State) {n m : Nat} (v : Word) (hne : m ≠ n)
    (hvalid : ¬ (m = 9 ∧ (n = 4 ∨ n = 5))) : registerValue (writeCsr s n v) m = registerValue s m := by
  by_cases hgeom : n = 4 ∨ n = 5
  · have hm : m ≠ 9 := fun h => hvalid ⟨h, hgeom⟩
    rw [registerValue_eq, registers_writeCsr_geometry s v hgeom, List.getElem?_set_ne hm.symm,
      List.getElem?_set_ne hne.symm, registerValue_eq]
  · by_cases hn : n ∈ [0, 6, 7, 8, 9]
    · rw [registerValue_eq, registers_writeCsr s v hn, List.getElem?_set_ne hne.symm, registerValue_eq]
    · simp only [List.mem_cons, List.not_mem_nil, or_false, not_or] at hgeom hn
      rw [writeCsr_ignored s v (by simp; omega)]

/-! ### The host's register accesses -/

/-- The VALID bits a write to WIDTH or HEIGHT leaves are bits 6 to 11 (R31). -/
theorem not_validBits_geometrySpaces : ~~~ validBits geometrySpaces = 0x0FC0 := by decide

/-- Settles O35: a write to WIDTH or HEIGHT masks VALID and touches nothing but the registers. -/
theorem geometryWriteInvalidatesPlanes : Obligations.GeometryWriteInvalidatesPlanes := by
  intro s v rest
  rw [← not_validBits_geometrySpaces]
  exact ⟨fun hp => ⟨_, step_cons hp, rfl, rfl, rfl, rfl⟩, fun hp => ⟨_, step_cons hp, rfl, rfl, rfl, rfl⟩⟩

/-- Settles O36: a write sets the entry of its number in the list of registers, and VALID with WIDTH or HEIGHT. -/
theorem registerWriteReadsBack : Obligations.RegisterWriteReadsBack := by
  intro s n v rest hp
  refine ⟨writeCsr (s.advance rest) n v, step_cons hp, by simp, by simp, by simp, ?_, ?_, ?_⟩
  · exact registerValue_writeCsr_same (s.advance rest) n v
  · exact fun m => registerValue_writeCsr_ne (s.advance rest) v
  · exact fun m => registerValue_of_ge _

/-- Settles O37: the reply is the register's value in the table, and a read writes nothing else. -/
theorem registerReadHasNoSideEffect : Obligations.RegisterReadHasNoSideEffect := by
  intro s n rest hp
  refine ⟨_, step_cons hp, ?_, rfl, rfl, rfl, rfl⟩
  exact congrArg (fun v => some (Reply.csr v)) (readCsr_eq_registerValue (s.advance rest) n)

/-! ### The read-only tables -/

theorem cosRom_eq_cosine : ∀ m < 8, ∀ p < 8, cosRom m p = cosine m p := by decide

theorem normRom_eq_norm (p q : Nat) : normRom p q = norm p q := by
  cases p <;> cases q <;> simp [normRom, Claims.norm]

/-- Mirroring the spatial index changes the sign of the odd frequencies. -/
theorem cosine_mirror : ∀ m < 8, ∀ p < 8, cosine (7 - m) p = (-1) ^ p * cosine m p := by decide

theorem sum_cosine_eq_zero : ∀ p < 8, 0 < p → ∑ m ∈ Finset.range 8, cosine m p = 0 := by decide

/-- Settles O47: the 64 entries and the four kinds of NORM, one by one. -/
theorem romTablesAreThePrintedOnes : Obligations.RomTablesAreThePrintedOnes :=
  ⟨cosRom_eq_cosine, fun p _ q _ => normRom_eq_norm p q, cosine_mirror, sum_cosine_eq_zero⟩

end Sys2Proof.Machine
end

section
/-! The host's access to the data spaces (20_memory.md R62, R63). -/

namespace Sys2Proof.Machine

open Sys2Proof.Claims

/-! ### Element values and bits -/

/-- An element keeps a value modulo 2 to its width (R62). -/
theorem toNat_elemBits (sp : Space) (v : Int) : ((elemBits sp v).toNat : Int) = v % 2 ^ sp.width := by
  have hnonneg : 0 ≤ v % ((2 ^ sp.width : Nat) : Int) := Int.emod_nonneg v (by positivity)
  rw [elemBits, BitVec.toNat_ofInt, Int.toNat_of_nonneg hnonneg, Nat.cast_pow, Nat.cast_ofNat]

/-- The four spaces of unsigned elements (10_state.md R40). -/
theorem spaceSigned_eq_false_iff (sp : Space) : spaceSigned sp = false ↔ sp ∈ [Space.pix, .qt, .tok, .out] := by
  cases sp <;> decide

theorem elemValue_eq (sp : Space) (b : BitVec sp.width) :
    elemValue sp b = if sp ∈ [Space.pix, .qt, .tok, .out] then (b.toNat : Int) else b.toInt := by
  simp only [elemValue, ← spaceSigned_eq_false_iff]
  cases spaceSigned sp <;> rfl

/-! ### Host writes -/

section HostAccess
variable (s : State) {sp : Space} {i : Nat}

theorem hostWriteMem_of_lt (v : Int) (h : i < spaceSize s.cfg sp) : hostWriteMem s sp i v = s.write sp i v := if_pos h

theorem hostWriteMem_of_ge (v : Int) (h : spaceSize s.cfg sp ≤ i) : hostWriteMem s sp i v = s :=
  if_neg (Nat.not_lt.2 h)

theorem State.write_unchangedOutside (sp : Space) (i : Nat) (v : Int) :
    unchangedOutside s (s.write sp i v) fun sp' j => sp' = sp ∧ j = i :=
  fun _ _ h => congrArg (elemValue _) (s.elem_write_ne v h)

/-! ### Host reads -/

theorem State.elem_of_cellsGet {b : BitVec sp.width} (h : cellsGet (s.mem.get sp) i = some b) :
    s.elem sp i = b := by
  simp only [State.elem, h]

theorem hostReadMem_of_ge (h : spaceSize s.cfg sp ≤ i) : hostReadMem s sp i = 0 := if_neg (Nat.not_lt.2 h)

theorem hostReadMem_of_cellsGet {b : BitVec sp.width} (hi : i < spaceSize s.cfg sp)
    (hb : cellsGet (s.mem.get sp) i = some b) : hostReadMem s sp i = elemValue sp b := by
  rw [hostReadMem, if_pos hi, State.read, s.elem_of_cellsGet hb]

end HostAccess

/-- Settles O38: inside the space the host's write is the write of one element, beyond it nothing at all. -/
theorem hostWriteKeepsLowBits : Obligations.HostWriteKeepsLowBits := by
  intro s sp i v rest hp
  refine ⟨hostWriteMem (s.advance rest) sp i v, step_cons hp, by simp, by simp, by simp, fun hi => ?_, fun hi => ?_⟩
  · rw [hostWriteMem_of_lt (s.advance rest) v hi, State.elem_write_same]
    exact ⟨toNat_elemBits sp v, State.write_unchangedOutside _ sp i v⟩
  · rw [hostWriteMem_of_ge (s.advance rest) v hi, State.advance_mem]

/-- Settles O39: the reply is the element's value by its type, and a read writes nothing else. -/
theorem hostReadAnswersByType : Obligations.HostReadAnswersByType := by
  intro s sp i rest hp
  refine ⟨_, hostReadMem (s.advance rest) sp i, step_cons hp, rfl, rfl, rfl, rfl, rfl, fun hi => ?_,
    fun b hi hb => ?_⟩
  · exact hostReadMem_of_ge (s.advance rest) hi
  · rw [hostReadMem_of_cellsGet (s.advance rest) hi hb, elemValue_eq]

end Sys2Proof.Machine
end

section
/-! Commands cannot see what lies outside the planes and blocks (20_memory.md R67). Two states that agree on what a
command may read are taken through the command's writes side by side: at every write each element is left alone in
both, or takes one and the same value in both. -/

namespace Sys2Proof.Machine

open Sys2Proof.Claims

/-! ### What a command may read -/

/-- How many elements of a space a command may read: a plane's rows and columns, a block's 64 elements, and nothing of
TOK and OUT. -/
def State.readableSize (s : State) : Space → Nat
  | .pix | .py | .pcb | .pcr => s.imgH * s.imgW
  | .scb | .scr => ceilDiv s.imgH 2 * ceilDiv s.imgW 2
  | .blk | .coef | .qt | .qc | .zz => 64
  | .tok | .out => 0

/-- Element `SPACE[r][c]` of a plane (20_memory.md R61) is one of its `rows * cols` elements. -/
theorem rowMajor_lt {r c rows cols : Nat} (hr : r < rows) (hc : c < cols) : r * cols + c < rows * cols := by
  rw [Nat.mul_comm r]
  exact Nat.mul_add_lt_mul_of_lt_of_lt hr hc

theorem State.readableSize_planeSpace (s : State) (pl : Plane) :
    s.readableSize (planeSpace pl) = s.rows pl * s.cols pl := by
  cases pl <;> rfl

/-- The planes SUB takes are of full resolution (40_color_subsample.md R107). -/
theorem State.readableSize_of_subsampled (s : State) {pl : Plane} (hpl : pl.subsampled = true) :
    s.readableSize (planeSpace pl) = s.imgH * s.imgW := by
  cases pl with
  | cb | cr => rfl
  | y | scb | scr => exact absurd hpl (by decide)

theorem State.readableSize_congr {s t : State} (hw : t.csr.width = s.csr.width) (hh : t.csr.height = s.csr.height)
    (sp : Space) : t.readableSize sp = s.readableSize sp := by
  have himgW : t.imgW = s.imgW := by simp only [State.imgW, State.widthReg, hw]
  have himgH : t.imgH = s.imgH := by simp only [State.imgH, State.heightReg, hh]
  cases sp <;> simp only [State.readableSize, himgW, himgH]

theorem agreeOnReadable_iff (s s' : State) :
    agreeOnReadable s s' ↔ s.csr = s'.csr ∧ s.cfg = s'.cfg ∧ s.draws = s'.draws
      ∧ ∀ sp, ∀ k < s.readableSize sp, s.elem sp k = s'.elem sp k := by
  refine and_congr_right fun _ => and_congr_right fun _ => and_congr_right fun _ => ⟨?_, fun h => ⟨?_, ?_, ?_⟩⟩
  · rintro ⟨hfull, hhalf, hblock⟩ sp
    cases sp with
    | pix | py | pcb | pcr => exact hfull _ (by simp)
    | scb | scr => exact hhalf _ (by simp)
    | blk | coef | qt | qc | zz => exact hblock _ (by simp)
    | tok | out => exact fun k hk => absurd hk (Nat.not_lt_zero k)
  all_goals
    intro sp hsp
    simp only [List.mem_cons, List.not_mem_nil, or_false] at hsp
  · obtain rfl | rfl | rfl | rfl := hsp <;> exact fun k hk => h _ k hk
  · obtain rfl | rfl := hsp <;> exact fun k hk => h _ k hk
  · obtain rfl | rfl | rfl | rfl | rfl := hsp <;> exact fun k hk => h _ k hk

/-! ### What a command computes from agreeing states -/

section Values
variable {s s' : State} (h : agreeOnReadable s s')
include h

theorem csr_eq_of_agree : s.csr = s'.csr := h.1

theorem cfg_eq_of_agree : s.cfg = s'.cfg := h.2.1

theorem imgW_eq_of_agree : s.imgW = s'.imgW := State.imgW_congr (csr_eq_of_agree h)

theorem imgH_eq_of_agree : s.imgH = s'.imgH := State.imgH_congr (csr_eq_of_agree h)

theorem geomLegal_iff_of_agree : s.geomLegal ↔ s'.geomLegal :=
  State.geomLegal_congr (csr_eq_of_agree h) (cfg_eq_of_agree h)

theorem elem_eq_of_agree {sp : Space} {k : Nat} (hk : k < s.readableSize sp) : s.elem sp k = s'.elem sp k := by
  obtain ⟨-, -, -, helem⟩ := (agreeOnReadable_iff s s').1 h
  exact helem sp k hk

theorem read_eq_of_agree {sp : Space} {k : Nat} (hk : k < s.readableSize sp) : s.read sp k = s'.read sp k :=
  congrArg (elemValue sp) (elem_eq_of_agree h hk)

theorem offI_eq_of_agree : s.offI = s'.offI := by simp only [State.offI, csr_eq_of_agree h]

theorem offJ_eq_of_agree : s.offJ = s'.offJ := by simp only [State.offJ, csr_eq_of_agree h]

theorem geomInfo_eq_of_agree : s.geomInfo = s'.geomInfo := by
  have hcsr := csr_eq_of_agree h
  have hcfg := cfg_eq_of_agree h
  have hw : s.widthLegal ↔ s'.widthLegal := by simp only [State.widthLegal, State.widthReg, hcsr, hcfg]
  have hh : s.heightLegal ↔ s'.heightLegal := by simp only [State.heightLegal, State.heightReg, hcsr, hcfg]
  exact congrArg₂ (· ||| ·) (if_congr hw rfl rfl) (if_congr hh rfl rfl)

theorem missing_eq_of_agree (need : List Space) : s.missing need = s'.missing need := by
  simp only [State.missing, csr_eq_of_agree h]

theorem freshTable_eq_of_agree (kind : Kind) : s.freshTable kind = s'.freshTable kind :=
  State.freshTable_congr (csr_eq_of_agree h) (cfg_eq_of_agree h) kind

theorem convertPixel_eq_of_agree (f : Int → Int → Int → Int) :
    ∀ r < s.imgH, ∀ c < s.imgW, s.convertPixel f r c = s'.convertPixel f r c := by
  intro r hr c hc
  simp only [State.convertPixel, ← imgW_eq_of_agree h, elem_eq_of_agree h (sp := .pix) (rowMajor_lt hr hc)]

theorem sampleOrZero_eq_of_agree {src : Space} (hsrc : s.readableSize src = s.imgH * s.imgW) (r c : Nat) :
    s.sampleOrZero src r c = s'.sampleOrZero src r c := by
  simp only [State.sampleOrZero, ← imgH_eq_of_agree h, ← imgW_eq_of_agree h]
  split
  · rename_i hin
    obtain ⟨hr, hc⟩ := hin
    exact read_eq_of_agree h (hsrc ▸ rowMajor_lt hr hc)
  · rfl

theorem sub2x2_eq_of_agree {src : Space} (hsrc : s.readableSize src = s.imgH * s.imgW) :
    s.sub2x2 src = s'.sub2x2 src := by
  funext r c
  simp only [State.sub2x2, sampleOrZero_eq_of_agree h hsrc]

theorem blkx_eq_of_agree (pl : Plane) (i j : Nat) : s.blkx pl i j = s'.blkx pl i j := by
  funext k
  simp only [State.blkx, ← State.rows_congr (csr_eq_of_agree h), ← State.cols_congr (csr_eq_of_agree h)]
  split
  · rename_i hin
    obtain ⟨hr, hc⟩ := hin
    rw [read_eq_of_agree h (s.readableSize_planeSpace pl ▸ rowMajor_lt hr hc)]
  · rfl

theorem blockCoef_eq_of_agree (pl : Plane) (i j : Nat) : s.blockCoef pl i j = s'.blockCoef pl i j :=
  congrArg dct (blkx_eq_of_agree h pl i j)

theorem blockQuant_eq_of_agree (pl : Plane) (i j : Nat) : s.blockQuant pl i j = s'.blockQuant pl i j := by
  funext k
  simp only [State.blockQuant, State.blockTable, State.rnd_congr (csr_eq_of_agree h), blockCoef_eq_of_agree h,
    freshTable_eq_of_agree h]

theorem blockTokens_eq_of_agree (pl : Plane) (i j : Nat) : s.blockTokens pl i j = s'.blockTokens pl i j := by
  simp only [State.blockTokens, State.blockZigzag, blockQuant_eq_of_agree h]

theorem planeTokens_eq_of_agree (pl : Plane) : s.planeTokens pl = s'.planeTokens pl := by
  simp only [State.planeTokens, State.rows_congr (csr_eq_of_agree h), State.cols_congr (csr_eq_of_agree h),
    blockTokens_eq_of_agree h]

theorem rle_list64_eq_of_agree : rle (list64 (s.read .zz)) = rle (list64 (s'.read .zz)) :=
  congrArg rle (list64_congr fun _ hk => read_eq_of_agree h (sp := .zz) hk)

theorem zeroDivisor_eq_of_agree : s.zeroDivisor = s'.zeroDivisor := by
  refine List.find?_congr fun k hk => ?_
  rw [read_eq_of_agree h (sp := .qt) (List.mem_range.1 hk)]

end Values

/-! ### Contents becoming unspecified -/

theorem State.get_forget_mem (s : State) {l : List Space} {sp : Space} (h : sp ∈ l) :
    (s.forget l).mem.get sp = [] := by
  induction l generalizing s with
  | nil => exact absurd h List.not_mem_nil
  | cons x rest ih =>
    rw [State.forget]
    by_cases hrest : sp ∈ rest
    · exact ih _ hrest
    · obtain rfl : sp = x := (List.mem_cons.1 h).resolve_right hrest
      rw [State.get_forget_ne _ hrest]
      exact Memory.get_set_same _ _ _

/-- An element that has become unspecified reads as its free value. -/
theorem State.elem_forget_mem (s : State) {l : List Space} {sp : Space} (k : Nat) (h : sp ∈ l) :
    (s.forget l).elem sp k = Config.unwritten sp s.draws k := by
  simp only [State.elem, State.get_forget_mem s h, cellsGet_nil, State.forget_draws]

/-! ### Two runs side by side -/

/-- `s` has become `t` and `s'` has become `t'` by writes that treat both alike: the registers and the model's fields a
read depends on agree, the geometry is as it was, and each element is left alone in both or the same in both. The last
is a statement about both states, so that writes compose (`InStep.trans`). -/
structure InStep (s s' t t' : State) : Prop where
  csr : t.csr = t'.csr
  cfg : t.cfg = t'.cfg
  draws : t.draws = t'.draws
  width : t.csr.width = s.csr.width
  height : t.csr.height = s.csr.height
  elem : ∀ sp k, (t.elem sp k = s.elem sp k ∧ t'.elem sp k = s'.elem sp k) ∨ t.elem sp k = t'.elem sp k

namespace InStep
variable {s s' t t' : State}

theorem refl (h : agreeOnReadable s s') : InStep s s' s s' := by
  obtain ⟨hcsr, hcfg, hdraws, -⟩ := h
  exact ⟨hcsr, hcfg, hdraws, rfl, rfl, fun _ _ => .inl ⟨rfl, rfl⟩⟩

theorem trans {u u' : State} (hst : InStep s s' t t') (htu : InStep t t' u u') : InStep s s' u u' := by
  refine ⟨htu.csr, htu.cfg, htu.draws, htu.width.trans hst.width, htu.height.trans hst.height, fun sp k => ?_⟩
  obtain ⟨hu, hu'⟩ | heq := htu.elem sp k
  · rw [hu, hu']
    exact hst.elem sp k
  · exact .inr heq

/-- Agreement is kept: each readable element is as it was in both states or the same in both. -/
theorem agree (hst : InStep s s' t t') (h : agreeOnReadable s s') : agreeOnReadable t t' := by
  refine (agreeOnReadable_iff t t').2 ⟨hst.csr, hst.cfg, hst.draws, fun sp k hk => ?_⟩
  rw [State.readableSize_congr hst.width hst.height] at hk
  obtain ⟨ht, ht'⟩ | heq := hst.elem sp k
  · rw [ht, ht', elem_eq_of_agree h hk]
  · exact heq

/-! ### The writes the commands share -/

/-- A write to registers other than WIDTH and HEIGHT, computed from the registers. -/
theorem setCsr (hst : InStep s s' t t') (f : Csrs → Csrs) (hw : (f t.csr).width = t.csr.width)
    (hh : (f t.csr).height = t.csr.height) :
    InStep s s' { t with csr := f t.csr } { t' with csr := f t'.csr } :=
  ⟨congrArg f hst.csr, hst.cfg, hst.draws, hw.trans hst.width, hh.trans hst.height, hst.elem⟩

theorem setValid (hst : InStep s s' t t') (l : List Space) : InStep s s' (t.setValid l) (t'.setValid l) :=
  hst.setCsr (fun c => { c with valid := c.valid ||| validBits l }) rfl rfl

theorem clearValid (hst : InStep s s' t t') (l : List Space) : InStep s s' (t.clearValid l) (t'.clearValid l) :=
  hst.setCsr (fun c => { c with valid := c.valid &&& ~~~ validBits l }) rfl rfl

theorem raise (hst : InStep s s' t t') (c : Cause) (info : Word) : InStep s s' (t.raise c info) (t'.raise c info) :=
  hst.setCsr (fun r => { r with status := 1#1, fcode := causeCode c, finfo := info }) rfl rfl

theorem fillBits (hst : InStep s s' t t') (sp : Space) (vs : List (BitVec sp.width)) :
    InStep s s' (t.fillBits sp vs) (t'.fillBits sp vs) := by
  refine ⟨hst.csr, hst.cfg, hst.draws, hst.width, hst.height, fun sp' k => ?_⟩
  by_cases hsp : sp' = sp
  · subst hsp
    by_cases hk : k < vs.length
    · exact .inr (by rw [State.elem_fillBits_lt _ hk, State.elem_fillBits_lt _ hk])
    · rw [State.elem_fillBits_ge _ (Nat.not_lt.1 hk), State.elem_fillBits_ge _ (Nat.not_lt.1 hk)]
      exact hst.elem sp' k
  · rw [State.elem_fillBits_ne _ _ _ hsp, State.elem_fillBits_ne _ _ _ hsp]
    exact hst.elem sp' k

theorem fillSame (hst : InStep s s' t t') (sp : Space) (n : Nat) (f : Nat → Int) :
    InStep s s' (t.fill sp n f) (t'.fill sp n f) :=
  hst.fillBits sp _

theorem fill (hst : InStep s s' t t') (sp : Space) {n : Nat} {f g : Nat → Int} (hfg : ∀ k < n, f k = g k) :
    InStep s s' (t.fill sp n f) (t'.fill sp n g) := by
  rw [State.fill_congr t sp n hfg]
  exact hst.fillSame sp n g

theorem fillPlane (hst : InStep s s' t t') (sp : Space) {rows cols : Nat} {f g : Nat → Nat → Int}
    (hfg : ∀ r < rows, ∀ c < cols, f r c = g r c) :
    InStep s s' (t.fillPlane sp rows cols f) (t'.fillPlane sp rows cols g) :=
  hst.fill sp fun k hk =>
    hfg _ (Nat.div_lt_of_lt_mul (Nat.mul_comm rows cols ▸ hk)) _ (Nat.mod_lt k (Nat.pos_of_lt_mul_left hk))

theorem forget (hst : InStep s s' t t') (l : List Space) : InStep s s' (t.forget l) (t'.forget l) := by
  refine ⟨by simpa using hst.csr, by simpa using hst.cfg, by simpa using hst.draws, by simpa using hst.width,
    by simpa using hst.height, fun sp k => ?_⟩
  by_cases hsp : sp ∈ l
  · exact .inr (by rw [State.elem_forget_mem _ k hsp, State.elem_forget_mem _ k hsp, hst.draws])
  · rw [State.elem_forget_ne _ _ hsp, State.elem_forget_ne _ _ hsp]
    exact hst.elem sp k

theorem loadTokens (hst : InStep s s' t t') (ts : List (Int × Nat)) :
    InStep s s' (t.loadTokens ts) (t'.loadTokens ts) :=
  (hst.fillBits .tok _).setCsr (fun c => { c with tokn := BitVec.ofNat 32 ts.length }) rfl rfl

theorem loadTable (hst : InStep s s' t t') (f : Nat → Int) : InStep s s' (t.loadTable f) (t'.loadTable f) :=
  (hst.fillSame .qt 64 f).setValid _

theorem quantizeBy (hst : InStep s s' t t') (h : agreeOnReadable t t') {f g : Nat → Int}
    (hfg : ∀ k < 64, f k = g k) : InStep s s' (t.quantizeBy f) (t'.quantizeBy g) :=
  (hst.fill .qc fun k hk => by rw [State.rnd_congr hst.csr, read_eq_of_agree h (sp := .coef) hk, hfg k hk]).setValid _

theorem loadOutput (hst : InStep s s' t t') (ty tcb tcr : List (Int × Nat)) :
    InStep s s' (t.loadOutput ty tcb tcr) (t'.loadOutput ty tcb tcr) :=
  hst.fillBits .out _ |>.forget _
    |>.setCsr (fun c => { c with
        tokn := 0
        outn := BitVec.ofNat 32 (ty ++ tcb ++ tcr).length
        pstart0 := 0
        pstart1 := BitVec.ofNat 32 ty.length
        pstart2 := BitVec.ofNat 32 (ty ++ tcb).length }) rfl rfl
    |>.setValid _ |>.clearValid _

end InStep

/-! ### The commands, run side by side -/

section Commands
variable {s s' : State} (h : agreeOnReadable s s')
include h

theorem checkGeometry_inStep {run : State → State} (hrun : InStep s s' (run s) (run s')) :
    InStep s s' (s.checkGeometry run) (s'.checkGeometry run) := by
  unfold State.checkGeometry
  rw [geomInfo_eq_of_agree h]
  by_cases hgeom : s.geomLegal
  · rw [if_pos hgeom, if_pos ((geomLegal_iff_of_agree h).1 hgeom)]
    exact hrun
  · rw [if_neg hgeom, if_neg (mt (geomLegal_iff_of_agree h).2 hgeom)]
    exact (InStep.refl h).raise _ _

theorem checkValid_inStep (need : List Space) {run : State → State} (hrun : InStep s s' (run s) (run s')) :
    InStep s s' (s.checkValid need run) (s'.checkValid need run) := by
  unfold State.checkValid
  rw [missing_eq_of_agree h]
  split
  · exact hrun
  · exact (InStep.refl h).raise _ _

/-- The checks of a command that uses the geometry. -/
theorem checks_inStep (need : List Space) {run : State → State} (hrun : InStep s s' (run s) (run s')) :
    InStep s s' (s.checkGeometry fun s => s.checkValid need run) (s'.checkGeometry fun s => s.checkValid need run) :=
  checkGeometry_inStep h (checkValid_inStep h need hrun)

theorem writeColorPlanes_inStep : InStep s s' (writeColorPlanes s) (writeColorPlanes s') := by
  unfold writeColorPlanes
  rw [← imgH_eq_of_agree h, ← imgW_eq_of_agree h]
  have hpixel := convertPixel_eq_of_agree h
  exact InStep.refl h |>.fillPlane .py (hpixel cscY) |>.fillPlane .pcb (hpixel cscCb)
    |>.fillPlane .pcr (hpixel cscCr)

theorem writeSubsampled_inStep {pl : Plane} (hpl : pl.subsampled = true) :
    InStep s s' (writeSubsampled pl s) (writeSubsampled pl s') := by
  unfold writeSubsampled
  rw [sub2x2_eq_of_agree h (s.readableSize_of_subsampled hpl), imgH_eq_of_agree h, imgW_eq_of_agree h]
  exact (InStep.refl h).fillPlane _ fun _ _ _ _ => rfl

theorem quantizeFresh_inStep (kind : Kind) : InStep s s' (quantizeFresh kind s) (quantizeFresh kind s') := by
  unfold quantizeFresh
  rw [freshTable_eq_of_agree h kind]
  have htable := (InStep.refl h).loadTable (s'.freshTable kind)
  exact htable.quantizeBy (htable.agree h) fun _ _ => rfl

theorem quantizeResident_inStep : InStep s s' (quantizeResident s) (quantizeResident s') := by
  unfold quantizeResident
  rw [zeroDivisor_eq_of_agree h]
  split
  · exact (InStep.refl h).raise _ _
  · exact (InStep.refl h).quantizeBy h fun k hk => read_eq_of_agree h (sp := .qt) hk

theorem writeBlock_inStep (pl : Plane) (i j : Nat) : InStep s s' (writeBlock pl i j s) (writeBlock pl i j s') := by
  simp only [writeBlock, State.blockTable, State.blockZigzag, blkx_eq_of_agree h, blockCoef_eq_of_agree h,
    freshTable_eq_of_agree h, blockQuant_eq_of_agree h, blockTokens_eq_of_agree h]
  exact InStep.refl h |>.fillSame .blk 64 _ |>.fillSame .coef 64 _ |>.fillSame .qt 64 _ |>.fillSame .qc 64 _
    |>.fillSame .zz 64 _ |>.loadTokens _ |>.setValid _

theorem writeAllPlanes_inStep : InStep s s' (writeAllPlanes s) (writeAllPlanes s') := by
  have hcolor := writeColorPlanes_inStep h
  have hcb := hcolor.trans (writeSubsampled_inStep (hcolor.agree h) (pl := .cb) rfl)
  exact hcb.trans (writeSubsampled_inStep (hcb.agree h) (pl := .cr) rfl)

theorem writeFrame_inStep : InStep s s' (writeFrame s) (writeFrame s') := by
  have hplanes := writeAllPlanes_inStep h
  simp only [writeFrame, planeTokens_eq_of_agree (hplanes.agree h)]
  exact hplanes.loadOutput _ _ _

theorem execSub_inStep (pl : Plane) :
    ∃ t t', execSub pl s = .next t ∧ execSub pl s' = .next t' ∧ InStep s s' t t' := by
  refine ⟨_, _, rfl, rfl, ?_⟩
  split
  · rename_i hpl
    exact checks_inStep h _ ((writeSubsampled_inStep h hpl).setValid _)
  · exact (InStep.refl h).raise _ _

theorem execQnt_inStep (kind : Kind) (res : Bool) :
    ∃ t t', execQnt kind res s = .next t ∧ execQnt kind res s' = .next t' ∧ InStep s s' t t' := by
  refine ⟨_, _, rfl, rfl, ?_⟩
  split
  · exact checkValid_inStep h _ (quantizeResident_inStep h)
  · exact checkValid_inStep h _ (quantizeFresh_inStep h kind)

/-- The noninterference lemma: a command leaves alone or writes alike, in both states, each element. -/
theorem exec_inStep (i : Instr) : ∃ t t', exec i s = .next t ∧ exec i s' = .next t' ∧ InStep s s' t t' := by
  cases i with
  | csc => exact ⟨_, _, rfl, rfl, checks_inStep h _ ((writeColorPlanes_inStep h).setValid _)⟩
  | sub pl => exact execSub_inStep h pl
  | blkx pl =>
    refine ⟨_, _, rfl, rfl, checks_inStep h _ (.setValid (.fill (.refl h) .blk fun k _ => ?_) _)⟩
    rw [blkx_eq_of_agree h, offI_eq_of_agree h, offJ_eq_of_agree h]
  | dct =>
    refine ⟨_, _, rfl, rfl, checkValid_inStep h _ (.setValid (.fill (.refl h) .coef fun k _ => ?_) _)⟩
    exact dct_congr (fun m hm => read_eq_of_agree h (sp := .blk) hm) k
  | qtbl kind =>
    refine ⟨_, _, rfl, rfl, ?_⟩
    rw [freshTable_eq_of_agree h kind]
    exact (InStep.refl h).loadTable _
  | qnt kind res => exact execQnt_inStep h kind res
  | zz =>
    refine ⟨_, _, rfl, rfl, checkValid_inStep h _ (.setValid (.fill (.refl h) .zz fun k hk => ?_) _)⟩
    exact read_eq_of_agree h (sp := .qc) (zzRom_lt hk)
  | rle =>
    refine ⟨_, _, rfl, rfl, checkValid_inStep h _ ?_⟩
    rw [rle_list64_eq_of_agree h]
    exact ((InStep.refl h).loadTokens _).setValid _
  | block pl =>
    refine ⟨_, _, rfl, rfl, checks_inStep h _ ?_⟩
    rw [offI_eq_of_agree h, offJ_eq_of_agree h]
    exact writeBlock_inStep h pl _ _
  | frame => exact ⟨_, _, rfl, rfl, checks_inStep h _ (writeFrame_inStep h)⟩

end Commands

/-- Settles O45: a command treats two states that agree on what it may read alike, element by element. -/
theorem elementsOutsidePlanesHaveNoEffect : Obligations.ElementsOutsidePlanesHaveNoEffect := by
  intro i s s' t t' h ht ht'
  obtain ⟨u, u', hu, hu', hstep⟩ := exec_inStep h i
  obtain rfl : u = t := by simpa [hu] using ht
  obtain rfl : u' = t' := by simpa [hu'] using ht'
  exact ⟨hstep.agree h, fun sp k => (hstep.elem sp k).imp_left And.left⟩

end Sys2Proof.Machine
end

section
/-! The decoder (30_encoding.md R81 to R85): a word is its fields, and each row of the opcode map is inverted once. From
these the words that decode are the encodings of the well-formed commands, and the fields of a legal word are R85's. -/

namespace Sys2Proof.Machine

open Sys2Proof.Claims Sys2Proof.Laws

/-! ### The fields of a word -/

theorem toNat_extractLsb_eq_bitField (w : Word) {hi lo : Nat} (h : lo ≤ hi) :
    (w.extractLsb hi lo).toNat = bitField w hi lo := by
  rw [BitVec.extractLsb_toNat, bitField, Nat.sub_add_comm h]

theorem extractLsb_eq_zero_iff (w : Word) {hi lo : Nat} (h : lo ≤ hi) :
    w.extractLsb hi lo = 0 ↔ bitField w hi lo = 0 := by
  rw [← BitVec.toNat_inj, toNat_extractLsb_eq_bitField w h]
  rfl

theorem bitField_lt (w : Word) (hi lo : Nat) : bitField w hi lo < 2 ^ (hi + 1 - lo) := Nat.mod_lt _ (by positivity)

/-- The six fields of format C cover the word. -/
theorem eq_of_bitField_eq {v w : Word} (hop : bitField v 31 24 = bitField w 31 24)
    (hpl : bitField v 23 20 = bitField w 23 20) (hz2 : bitField v 19 18 = bitField w 19 18)
    (hres : bitField v 17 17 = bitField w 17 17) (hkind : bitField v 16 16 = bitField w 16 16)
    (hz16 : bitField v 15 0 = bitField w 15 0) : v = w := by
  simp only [bitField, Nat.shiftRight_eq_div_pow] at *
  bv_omega

/-! ### The opcode map, row by row -/

theorem planeOfCode_eq_some_iff {n : Nat} {pl : Plane} : planeOfCode n = some pl ↔ n = pl.code.toNat := by
  unfold planeOfCode
  split <;> cases pl <;> simp_all [Plane.code]

section Rows
variable {pl res kind : Nat} {i j : Instr}

theorem plain_eq_ok_iff : plain i pl res kind = .ok j ↔ pl = 0 ∧ kind = 0 ∧ res = 0 ∧ i = j := by
  unfold plain
  split_ifs <;> simp_all

theorem withPlane_eq_ok_iff {f : Plane → Instr} : withPlane f pl res kind = .ok j ↔
    ∃ p : Plane, pl = p.code.toNat ∧ (f p).wf = true ∧ kind = 0 ∧ res = 0 ∧ f p = j := by
  simp only [← planeOfCode_eq_some_iff]
  unfold withPlane
  split_ifs with hres hkind
  · simp [hres]
  · simp [hkind]
  · cases planeOfCode pl with
    | none => simp
    | some p => by_cases hp : (f p).wf = true <;> simp_all

theorem decodeOp_qtbl_eq_ok_iff :
    decodeOp 0x05 pl res kind = .ok j ↔ pl = 0 ∧ res = 0 ∧ .qtbl (kindOfCode kind) = j := by
  simp only [decodeOp]
  split_ifs <;> simp_all

theorem decodeOp_qnt_eq_ok_iff :
    decodeOp 0x06 pl res kind = .ok j ↔ pl = 0 ∧ .qnt (kindOfCode kind) (res == 1) = j := by
  simp only [decodeOp]
  split_ifs <;> simp_all

theorem opcode_of_decodeOp_eq_ok {op : Nat} (h : decodeOp op pl res kind = .ok i) : 1 ≤ op ∧ op ≤ 10 := by
  by_contra hop
  unfold decodeOp at h
  split at h <;> simp at hop h

/-- The opcodes by the fields they leave free: none, the plane, `kind`, or `kind` and `res` (R84). -/
theorem opcode_cases {op : Nat} (h : 1 ≤ op ∧ op ≤ 10) :
    (op = 1 ∨ op = 4 ∨ op = 7 ∨ op = 8 ∨ op = 10) ∨ (op = 2 ∨ op = 3 ∨ op = 9) ∨ op = 5 ∨ op = 6 := by
  omega

end Rows

/-! ### The fields of a legal word -/

theorem exists_code_eq_iff (n : Nat) : (∃ p : Plane, n = p.code.toNat) ↔ n ≤ 4 := by
  constructor
  · rintro ⟨p, rfl⟩
    cases p <;> decide
  · intro h
    obtain ⟨p, hp⟩ : ∃ p, planeOfCode n = some p := by interval_cases n <;> exact ⟨_, rfl⟩
    exact ⟨p, planeOfCode_eq_some_iff.1 hp⟩

theorem exists_subsampled_code_eq_iff (n : Nat) :
    (∃ p : Plane, n = p.code.toNat ∧ p.subsampled = true) ↔ n = 1 ∨ n = 2 := by
  constructor
  · rintro ⟨p, rfl, hp⟩
    revert hp
    cases p <;> decide
  · rintro (rfl | rfl)
    · exact ⟨.cb, rfl, rfl⟩
    · exact ⟨.cr, rfl, rfl⟩

theorem exists_decodeOp_eq_ok_iff (op pl res kind : Nat) : (∃ i, decodeOp op pl res kind = .ok i) ↔
    (1 ≤ op ∧ op ≤ 10) ∧ (op ∉ [2, 3, 9] → pl = 0) ∧ (op = 2 → pl ∈ [1, 2]) ∧ (op ∈ [3, 9] → pl ≤ 4)
      ∧ (op ∉ [5, 6] → kind = 0) ∧ (op ≠ 6 → res = 0) := by
  by_cases hop : 1 ≤ op ∧ op ≤ 10
  · have hplain (i : Instr) : (∃ j, plain i pl res kind = .ok j) ↔ pl = 0 ∧ kind = 0 ∧ res = 0 := by
      simp [plain_eq_ok_iff]
    have hplane (f : Plane → Instr) : (∃ j, withPlane f pl res kind = .ok j) ↔
        (∃ p : Plane, pl = p.code.toNat ∧ (f p).wf = true) ∧ kind = 0 ∧ res = 0 := by
      simp only [withPlane_eq_ok_iff]
      exact ⟨fun ⟨_, p, hpl, hwf, hkind, hres, _⟩ => ⟨⟨p, hpl, hwf⟩, hkind, hres⟩,
        fun ⟨⟨p, hpl, hwf⟩, hkind, hres⟩ => ⟨_, p, hpl, hwf, hkind, hres, rfl⟩⟩
    obtain hfixed | (rfl | rfl | rfl) | rfl | rfl := opcode_cases hop
    · rcases hfixed with rfl | rfl | rfl | rfl | rfl <;> simp [decodeOp, hplain]
    · simp [decodeOp, hplane, Instr.wf, exists_subsampled_code_eq_iff]
    · simp [decodeOp, hplane, Instr.wf, exists_code_eq_iff]
    · simp [decodeOp, hplane, Instr.wf, exists_code_eq_iff]
    · simp [decodeOp_qtbl_eq_ok_iff]
    · simp [decodeOp_qnt_eq_ok_iff]
  · exact iff_of_false (fun ⟨_, h⟩ => hop (opcode_of_decodeOp_eq_ok h)) fun h => hop h.1

theorem decode_eq_ok_iff_decodeOp {w : Word} {i : Instr} : decode w = .ok i ↔
    bitField w 15 0 = 0 ∧ bitField w 19 18 = 0 ∧
      decodeOp (bitField w 31 24) (bitField w 23 20) (bitField w 17 17) (bitField w 16 16) = .ok i := by
  unfold decode
  split_ifs <;> simp_all

/-! ### The words that decode -/

/-- A command found in the opcode map is well formed, and the fields it was found under are those of its encoding. -/
theorem encode_fields_of_decodeOp {op pl res kind : Nat} {i : Instr} (hres : res < 2) (hkind : kind < 2)
    (h : decodeOp op pl res kind = .ok i) :
    i.wf = true ∧ bitField (encode i) 31 24 = op ∧ bitField (encode i) 23 20 = pl
      ∧ bitField (encode i) 17 17 = res ∧ bitField (encode i) 16 16 = kind := by
  obtain hfixed | hplane | rfl | rfl := opcode_cases (opcode_of_decodeOp_eq_ok h)
  · rcases hfixed with rfl | rfl | rfl | rfl | rfl <;>
      (obtain ⟨rfl, rfl, rfl, rfl⟩ := plain_eq_ok_iff.1 h; decide)
  · rcases hplane with rfl | rfl | rfl <;>
      (obtain ⟨p, rfl, hwf, rfl, rfl, rfl⟩ := withPlane_eq_ok_iff.1 h; exact ⟨hwf, by cases p <;> decide⟩)
  · obtain ⟨rfl, rfl, rfl⟩ := decodeOp_qtbl_eq_ok_iff.1 h
    interval_cases kind <;> decide
  · obtain ⟨rfl, rfl⟩ := decodeOp_qnt_eq_ok_iff.1 h
    interval_cases kind <;> interval_cases res <;> decide

theorem encode_mustBeZero (i : Instr) : bitField (encode i) 15 0 = 0 ∧ bitField (encode i) 19 18 = 0 := by
  cases i with
  | sub pl | blkx pl | block pl => cases pl <;> decide
  | qtbl kind => cases kind <;> decide
  | qnt kind res => cases kind <;> cases res <;> decide
  | _ => decide

theorem decode_encode {i : Instr} (h : i.wf = true) : decode (encode i) = .ok i := by
  cases i with
  | csc => exact RoundTrip.csc h
  | sub pl => exact RoundTrip.sub pl h
  | blkx pl => exact RoundTrip.blkx pl h
  | dct => exact RoundTrip.dct h
  | qtbl kind => exact RoundTrip.qtbl kind h
  | qnt kind res => exact RoundTrip.qnt kind res h
  | zz => exact RoundTrip.zz h
  | rle => exact RoundTrip.rle h
  | block pl => exact RoundTrip.block pl h
  | frame => exact RoundTrip.frame h

theorem decode_eq_ok_iff_encode {w : Word} {i : Instr} : decode w = .ok i ↔ i.wf = true ∧ encode i = w := by
  constructor
  · intro h
    obtain ⟨hz16, hz2, hdecode⟩ := decode_eq_ok_iff_decodeOp.1 h
    obtain ⟨hwf, hop, hpl, hres, hkind⟩ :=
      encode_fields_of_decodeOp (bitField_lt w 17 17) (bitField_lt w 16 16) hdecode
    obtain ⟨hz16', hz2'⟩ := encode_mustBeZero i
    exact ⟨hwf, eq_of_bitField_eq hop hpl (hz2'.trans hz2.symm) hres hkind (hz16'.trans hz16.symm)⟩
  · rintro ⟨hwf, rfl⟩
    exact decode_encode hwf

theorem encode_mem_legalWords {i : Instr} (h : i.wf = true) : (encode i, i) ∈ legalWords := by
  cases i with
  | sub pl => cases pl <;> revert h <;> decide
  | blkx pl | block pl => cases pl <;> decide
  | qtbl kind => cases kind <;> decide
  | qnt kind res => cases kind <;> cases res <;> decide
  | _ => decide

theorem mem_legalWords_iff_encode {w : Word} {i : Instr} :
    (w, i) ∈ legalWords ↔ i.wf = true ∧ encode i = w := by
  constructor
  · exact (by decide : ∀ p ∈ legalWords, p.2.wf = true ∧ encode p.2 = p.1) (w, i)
  · rintro ⟨hwf, rfl⟩
    exact encode_mem_legalWords hwf

/-- Settles O3: the fields of a word decide whether the opcode map has a row for it, and the listed words are the
encodings of the well-formed commands. -/
theorem legalWordsAreExactlyThose : Obligations.LegalWordsAreExactlyThose := by
  intro w
  refine ⟨?_, fun _ => decode_eq_ok_iff_encode.trans mem_legalWords_iff_encode.symm, rfl⟩
  simp only [decode_eq_ok_iff_decodeOp, exists_and_left, exists_decodeOp_eq_ok_iff,
    toNat_extractLsb_eq_bitField, extractLsb_eq_zero_iff, Nat.reduceLeDiff]
  exact ⟨fun ⟨hz16, hz2, hop, hrest⟩ => ⟨hop, hz16, hz2, hrest⟩,
    fun ⟨hop, hz16, hz2, hrest⟩ => ⟨hz16, hz2, hop, hrest⟩⟩

/-! ### Every step ends -/

/-- Settles O6: every host action, and every command it issues, ends in a next state. -/
theorem everyStepCompletes : Obligations.EveryStepCompletes := by
  intro s
  obtain ⟨t, ht, -⟩ := step_completes s
  exact ⟨t, ht⟩

end Sys2Proof.Machine
end

section
/-! What the two checks before a command's writes report, in the statements' own words (60_exceptions.md R201, R203,
R205), and what filling a plane leaves as it was. -/

namespace Sys2Proof.Machine

open Sys2Proof.Claims

/-! ### The two checks -/

section Checks
variable {s : State} {sp : Space}

theorem State.geomInfo_eq_geometryInfo (s : State) : s.geomInfo = geometryInfo s := by
  change (if widthOk s then 0#32 else 1#32) ||| (if heightOk s then 0#32 else 2#32) = geometryInfo s
  unfold geometryInfo
  split_ifs <;> rfl

theorem State.missing_one_of_invalid (h : s.csr.valid.getLsbD (vbit sp) = false) :
    s.missing [sp] = 1#13 <<< vbit sp := by
  have hlt := vbit_lt sp
  simp only [State.missing, validBits]
  apply BitVec.eq_of_getLsbD_eq
  intro k hk
  by_cases hkb : k = vbit sp
  · subst hkb
    simpa [hlt] using h
  · have hbit : (1#13 <<< vbit sp).getLsbD k = false := by simp; omega
    simp [hbit]

/-- The mask of one VALID bit, as FINFO reports it. -/
theorem setWidth_validBit (sp : Space) : (1#13 <<< vbit sp).setWidth 32 = 1#32 <<< vbit sp := by
  cases sp <;> rfl

theorem validBits_singleton (sp : Space) : validBits [sp] = 1#13 <<< vbit sp := BitVec.or_zero

theorem State.checkGeometry_illegal {run : State → State} (h : ¬ geometryOk s) :
    s.checkGeometry run = faultState s 1 (geometryInfo s) :=
  (if_neg h).trans (congrArg (s.raise .invalidInput) s.geomInfo_eq_geometryInfo)

theorem State.checkGeometry_legal {run : State → State} (h : geometryOk s) : s.checkGeometry run = run s := if_pos h

theorem State.checkValid_notReady {run : State → State} (h : s.csr.valid.getLsbD (vbit sp) = false) :
    s.checkValid [sp] run = faultState s 4 (1#32 <<< vbit sp) := by
  have hmissing : s.missing [sp] ≠ 0 := fun h0 => Bool.false_ne_true (h.symm.trans ((s.missing_one sp).1 h0))
  rw [State.checkValid, if_neg hmissing, State.missing_one_of_invalid h, setWidth_validBit]
  rfl

theorem State.checkValid_ready {run : State → State} (h : s.csr.valid.getLsbD (vbit sp) = true) :
    s.checkValid [sp] run = run s := if_pos ((s.missing_one sp).2 h)

/-- A command that uses the geometry and needs one space: the three ways its checks can go (R205). -/
theorem checks_cases (s : State) (sp : Space) (run : State → State) :
    (¬ geometryOk s →
      (s.checkGeometry fun s => s.checkValid [sp] run) = faultState s 1 (geometryInfo s))
    ∧ (geometryOk s → s.csr.valid.getLsbD (vbit sp) = false →
      (s.checkGeometry fun s => s.checkValid [sp] run) = faultState s 4 (1#32 <<< vbit sp))
    ∧ (geometryOk s → s.csr.valid.getLsbD (vbit sp) = true →
      (s.checkGeometry fun s => s.checkValid [sp] run) = run s) :=
  ⟨State.checkGeometry_illegal,
    fun hgeom hbit => (State.checkGeometry_legal hgeom).trans (State.checkValid_notReady hbit),
    fun hgeom hbit => (State.checkGeometry_legal hgeom).trans (State.checkValid_ready hbit)⟩

end Checks

/-! ### Filling a plane -/

theorem unchangedOutside_trans {s t u : State} {stored : Space → Nat → Prop} (hst : unchangedOutside s t stored)
    (htu : unchangedOutside t u stored) : unchangedOutside s u stored :=
  fun sp i h => (htu sp i h).trans (hst sp i h)

section FillPlane
variable (s : State) {sp : Space} {rows cols : Nat}

theorem State.fillPlane_unchangedOutside (f : Nat → Nat → Int) {stored : Space → Nat → Prop}
    (h : ∀ i < rows * cols, stored sp i) : unchangedOutside s (s.fillPlane sp rows cols f) stored := by
  intro sp' i hnot
  by_cases hsp : sp' = sp
  · subst hsp
    have hge : rows * cols ≤ i := Nat.not_lt.1 fun hlt => hnot (h i hlt)
    exact congrArg (elemValue sp') (s.elem_fillPlane_ge f hge)
  · exact congrArg (elemValue sp') (s.elem_fillPlane_ne rows cols f i hsp)

theorem State.read_fillPlane_lt {f : Nat → Nat → Int} {r c : Nat} (hr : r < rows) (hc : c < cols)
    (hf : elemFits sp (f r c)) : (s.fillPlane sp rows cols f).read sp (r * cols + c) = f r c := by
  rw [State.read, s.elem_fillPlane_lt f hr hc, elemValue_elemBits hf]

theorem State.read_fillPlane_ne {sp' : Space} (f : Nat → Nat → Int) (i : Nat) (h : sp' ≠ sp) :
    (s.fillPlane sp rows cols f).read sp' i = s.read sp' i :=
  congrArg (elemValue sp') (s.elem_fillPlane_ne rows cols f i h)

end FillPlane

end Sys2Proof.Machine
end

section
/-! The colour transform (40_color_subsample.md R101 to R103): its ranges, and the command CSC. -/

namespace Sys2Proof.Machine

open Sys2Proof.Claims

/-! ### Ranges -/

/-- A channel of a pixel (10_state.md R41). -/
def isChannel (v : Int) : Prop := 0 ≤ v ∧ v ≤ 255

section Ranges
variable {r g b : Int} (hr : isChannel r) (hg : isChannel g) (hb : isChannel b)
include hr hg hb

theorem cscY_range : 0 ≤ cscY r g b ∧ cscY r g b ≤ 255000000 := by
  simp only [isChannel, cscY] at *
  omega

theorem cscCb_range : 500000 ≤ cscCb r g b ∧ cscCb r g b ≤ 255500000 := by
  simp only [isChannel, cscCb] at *
  omega

theorem cscCr_range : 500000 ≤ cscCr r g b ∧ cscCr r g b ≤ 255500000 := by
  simp only [isChannel, cscCr] at *
  omega

end Ranges

/-- The greatest value of the transform, 255500000, is below 2 to the 28 (format P, 10_state.md R42). -/
theorem elemFits_formatP {sp : Space} {v : Int} (hsp : sp ∈ [Space.py, .pcb, .pcr]) (h0 : 0 ≤ v)
    (h1 : v ≤ 255500000) : elemFits sp v := by
  simp only [List.mem_cons, List.not_mem_nil, or_false] at hsp
  obtain rfl | rfl | rfl := hsp <;> simp [elemFits, spaceSigned] <;> omega

theorem csc_grey (v : Int) : cscY v v v = 1000000 * v ∧ cscCb v v v = 128000000 ∧ cscCr v v v = 128000000 := by
  simp only [cscY, cscCb, cscCr]
  omega

/-- Settles O26: each bound takes every channel at the extreme its coefficient's sign asks for. -/
theorem colourTransformRanges : Obligations.ColourTransformRanges := by
  refine ⟨fun r g b hr0 hr1 hg0 hg1 hb0 hb1 => ?_, rfl, rfl, rfl, rfl, rfl, rfl, csc_grey⟩
  obtain ⟨hy0, hy1⟩ := cscY_range ⟨hr0, hr1⟩ ⟨hg0, hg1⟩ ⟨hb0, hb1⟩
  obtain ⟨hcb0, hcb1⟩ := cscCb_range ⟨hr0, hr1⟩ ⟨hg0, hg1⟩ ⟨hb0, hb1⟩
  obtain ⟨hcr0, hcr1⟩ := cscCr_range ⟨hr0, hr1⟩ ⟨hg0, hg1⟩ ⟨hb0, hb1⟩
  refine ⟨hy0, hy1, hcb0, hcb1, hcr0, hcr1, ?_, ?_, ?_⟩ <;>
    exact elemValue_elemBits (elemFits_formatP (by decide) (by omega) (by omega))

/-! ### CSC -/

theorem red_eq_pixelR (px : BitVec 24) : red px = pixelR px := by
  rw [red, BitVec.extractLsb_toNat, pixelR]

theorem green_eq_pixelG (px : BitVec 24) : green px = pixelG px := by
  rw [green, BitVec.extractLsb_toNat, pixelG]

theorem blue_eq_pixelB (px : BitVec 24) : blue px = pixelB px := by
  rw [blue, BitVec.extractLsb_toNat, pixelB, Nat.shiftRight_zero]

section ColorPlanes
variable (s : State)

/-- PY, PCB and PCR after the pixel loop, which reads PIX alone: no plane overwrites another. -/
theorem writeColorPlanes_read {r c : Nat} (hr : r < s.imgH) (hc : c < s.imgW) :
    (writeColorPlanes s).read .py (r * s.imgW + c) = s.convertPixel cscY r c
    ∧ (writeColorPlanes s).read .pcb (r * s.imgW + c) = s.convertPixel cscCb r c
    ∧ (writeColorPlanes s).read .pcr (r * s.imgW + c) = s.convertPixel cscCr r c := by
  obtain ⟨hy, hcb, hcr⟩ := s.convertPixel_fits r c
  unfold writeColorPlanes
  refine ⟨?_, ?_, State.read_fillPlane_lt _ hr hc hcr⟩
  · rw [State.read_fillPlane_ne _ _ _ (by decide), State.read_fillPlane_ne _ _ _ (by decide),
      State.read_fillPlane_lt _ hr hc hy]
  · rw [State.read_fillPlane_ne _ _ _ (by decide), State.read_fillPlane_lt _ hr hc hcb]

theorem writeColorPlanes_holdsColourTransform : holdsColourTransform s (writeColorPlanes s) := by
  intro r hr c hc
  simp only [red_eq_pixelR, green_eq_pixelG, blue_eq_pixelB]
  exact writeColorPlanes_read s hr hc

theorem writeColorPlanes_unchangedOutside : unchangedOutside s (writeColorPlanes s) fun sp i =>
    sp ∈ [Space.py, .pcb, .pcr] ∧ i < imageHeight s * imageWidth s :=
  unchangedOutside_trans (s.fillPlane_unchangedOutside _ fun _ hi => ⟨by decide, hi⟩) <|
    unchangedOutside_trans (State.fillPlane_unchangedOutside _ _ fun _ hi => ⟨by decide, hi⟩)
      (State.fillPlane_unchangedOutside _ _ fun _ hi => ⟨by decide, hi⟩)

end ColorPlanes

/-- Settles O12: the two checks in their order, then the pixel loop, which writes nothing but the three planes. -/
theorem cscConvertsEveryPixel : Obligations.CscConvertsEveryPixel := by
  intro s
  obtain ⟨hillegal, hnotReady, hrun⟩ := checks_cases s .pix (effect · .csc)
  refine ⟨fun hgeom => congrArg _ (hillegal hgeom), fun hgeom hbit => congrArg _ (hnotReady hgeom hbit),
    fun hgeom hbit => ⟨effect s .csc, congrArg _ (hrun hgeom hbit), ?_, ?_, ?_, ?_⟩⟩
  · exact writeColorPlanes_holdsColourTransform s
  · have hmask : validBits [.py, .pcb, .pcr] = 0x000E := by decide
    rw [effect, State.setValid_csr, hmask]
    rfl
  · exact writeColorPlanes_sameModelFields s
  · exact writeColorPlanes_unchangedOutside s

end Sys2Proof.Machine
end

section
/-! The chroma subsampler (40_color_subsample.md R105 to R107): the command SUB. -/

namespace Sys2Proof.Machine

open Sys2Proof.Claims

section Subsample
variable (s : State)

theorem writeSubsampled_unchangedOutside (pl : Plane) : unchangedOutside s (writeSubsampled pl s) fun sp i =>
    sp = subDest pl ∧ i < ((imageHeight s + 1) / 2) * ((imageWidth s + 1) / 2) :=
  s.fillPlane_unchangedOutside _ fun _ hi => ⟨rfl, hi⟩

variable {pl : Plane} (hpl : pl.subsampled = true)
include hpl

theorem sub2x2_fits_subDest (r c : Nat) : elemFits (subDest pl) (s.sub2x2 (planeSpace pl) r c) := by
  cases pl with
  | cb => exact (s.sub2x2_fits (.inl rfl) r c).1
  | cr => exact (s.sub2x2_fits (.inr rfl) r c).2
  | y | scb | scr => exact absurd hpl (by decide)

/-- The row stride of the destination is `ceil_div(W, 2)`, that of the source `W` (20_memory.md R61). -/
theorem writeSubsampled_holdsSubsample : holdsSubsample s (writeSubsampled pl s) (planeSpace pl) (subDest pl) :=
  fun r hr c hc => s.read_fillPlane_lt hr hc (sub2x2_fits_subDest s hpl r c)

theorem exec_sub : exec (.sub pl) s =
    .next (s.checkGeometry fun s => s.checkValid [planeSpace pl] (effect · (.sub pl))) :=
  congrArg _ (if_pos hpl)

/-- SUB of a plane it takes: the checks in their order, then the sums, written to the plane's destination alone. -/
theorem exec_sub_cases :
    (¬ geometryOk s → exec (.sub pl) s = .next (faultState s 1 (geometryInfo s)))
    ∧ (geometryOk s → s.csr.valid.getLsbD (vbit (planeSpace pl)) = false →
        exec (.sub pl) s = .next (faultState s 4 (1#32 <<< vbit (planeSpace pl))))
    ∧ (geometryOk s → s.csr.valid.getLsbD (vbit (planeSpace pl)) = true →
        ∃ t, exec (.sub pl) s = .next t ∧ holdsSubsample s t (planeSpace pl) (subDest pl)
          ∧ changesOnly s t { s.csr with valid := s.csr.valid ||| (1#13 <<< vbit (subDest pl)) }
              fun sp i => sp = subDest pl ∧ i < ((imageHeight s + 1) / 2) * ((imageWidth s + 1) / 2)) := by
  obtain ⟨hillegal, hnotReady, hrun⟩ := checks_cases s (planeSpace pl) (effect · (.sub pl))
  rw [exec_sub s hpl]
  refine ⟨fun hgeom => congrArg _ (hillegal hgeom), fun hgeom hbit => congrArg _ (hnotReady hgeom hbit),
    fun hgeom hbit => ⟨effect s (.sub pl), congrArg _ (hrun hgeom hbit), ?_, ?_, ?_, ?_⟩⟩
  · exact writeSubsampled_holdsSubsample s hpl
  · rw [effect, State.setValid_csr, validBits_singleton]
    rfl
  · exact writeSubsampled_sameModelFields s pl
  · exact writeSubsampled_unchangedOutside s pl

end Subsample

/-- Settles O13: a word that decodes is the encoding of a well-formed command, so of no SUB but the two. -/
theorem subSumsEveryNeighbourhood : Obligations.SubSumsEveryNeighbourhood := by
  refine ⟨fun pl hpl w hw => ?_, fun s pl src dst sbit dbit hrow => ?_⟩
  · obtain ⟨hwf, -⟩ := decode_eq_ok_iff_encode.1 hw
    have hnot : ∀ p ∈ [Plane.y, .scb, .scr], (Instr.sub p).wf = false := by decide
    exact absurd hwf (by simp [hnot pl hpl])
  · simp only [List.mem_cons, List.not_mem_nil, or_false, Prod.mk.injEq] at hrow
    obtain ⟨rfl, rfl, rfl, rfl, rfl⟩ | ⟨rfl, rfl, rfl, rfl, rfl⟩ := hrow
    · exact exec_sub_cases s (pl := .cb) rfl
    · exact exec_sub_cases s (pl := .cr) rfl

end Sys2Proof.Machine
end

section
/-! The block extractor (41_block_dct.md R120 to R123): the command BLKX. Its writes, like those of the other commands
that fill one per-block space, are the 64 elements of that space and its VALID bit. -/

namespace Sys2Proof.Machine

open Sys2Proof.Claims

/-! ### Filling a per-block space -/

section FillBlock
variable (s : State) (sp : Space) (n : Nat) (f : Nat → Int)

theorem State.fill_unchangedOutside : unchangedOutside s (s.fill sp n f) fun sp' i => sp' = sp ∧ i < n := by
  intro sp' i hnot
  by_cases hsp : sp' = sp
  · subst hsp
    have hge : n ≤ i := Nat.not_lt.1 fun hlt => hnot ⟨rfl, hlt⟩
    exact congrArg (elemValue sp') (s.elem_fill_ge f hge)
  · exact s.read_fill_ne n f i hsp

/-- Filling a space and setting its VALID bit is the whole change. -/
theorem State.fill_setValid_changesOnly : changesOnly s ((s.fill sp n f).setValid [sp])
    { s.csr with valid := s.csr.valid ||| (1#13 <<< vbit sp) } fun sp' i => sp' = sp ∧ i < n := by
  refine ⟨?_, ?_, s.fill_unchangedOutside sp n f⟩
  · rw [State.setValid_csr, validBits_singleton, State.fill_csr]
  · simp [sameModelFields]

end FillBlock

/-! ### BLKX -/

section Extractor
variable (s : State) (pl : Plane)

theorem vbit_planeSpace : vbit (planeSpace pl) = validBitOf pl := by cases pl <;> rfl

theorem State.blkx_eq_blockSample (i j x : Nat) {y : Nat} (hy : y < 8) :
    s.blkx pl i j (8 * x + y) = blockSample s pl i j x y := by
  have hrow : (8 * x + y) / 8 = x := by omega
  have hcol : (8 * x + y) % 8 = y := by omega
  simp only [State.blkx, hrow, hcol]
  cases pl <;> rfl

theorem effect_blkx_read {x y : Nat} (hx : x < 8) (hy : y < 8) :
    (effect s (.blkx pl)).read .blk (8 * x + y) = blockSample s pl s.offI s.offJ x y :=
  (s.read_fill_lt (by omega) (s.blkx_fits pl s.offI s.offJ _)).trans (s.blkx_eq_blockSample pl s.offI s.offJ x hy)

end Extractor

/-- Settles O14: the two checks in their order, then the 64 centred samples, each of which fits its element. -/
theorem blkxExtractsCentredBlock : Obligations.BlkxExtractsCentredBlock := by
  intro s pl
  obtain ⟨hillegal, hnotReady, hrun⟩ := checks_cases s (planeSpace pl) (effect · (.blkx pl))
  rw [vbit_planeSpace] at hnotReady hrun
  exact ⟨fun hgeom => congrArg _ (hillegal hgeom), fun hgeom hbit => congrArg _ (hnotReady hgeom hbit),
    fun hgeom hbit => ⟨effect s (.blkx pl), congrArg _ (hrun hgeom hbit),
      fun x hx y hy => effect_blkx_read s pl hx hy, s.fill_setValid_changesOnly .blk 64 _⟩⟩

end Sys2Proof.Machine
end

section
/-! The forward transform (41_block_dct.md R126 to R130): the command DCT, and the exact properties of the double sum,
which all follow from its linearity and from the way it factors on a block that is a product of a function of the row
and a function of the column. -/

namespace Sys2Proof.Machine

open Sys2Proof.Claims Finset

/-! ### The command -/

theorem dct_eq_dctSum (b : Nat → Int) {p q : Nat} (hp : p < 8) (hq : q < 8) : dct b (8 * p + q) = dctSum b p q := by
  have hrow : (8 * p + q) / 8 = p := by omega
  have hcol : (8 * p + q) % 8 = q := by omega
  simp only [dct, dctSum, sum8_eq_sum, hrow, hcol, normRom_eq_norm]
  refine congrArg _ (sum_congr rfl fun m hm => sum_congr rfl fun n hn => ?_)
  rw [cosRom_eq_cosine m (mem_range.1 hm) p hp, cosRom_eq_cosine n (mem_range.1 hn) q hq]

theorem effect_dct_read (s : State) {p q : Nat} (hp : p < 8) (hq : q < 8) :
    (effect s .dct).read .coef (8 * p + q) = dctSum (s.read .blk) p q :=
  (s.read_fill_lt (by omega) (dct_fits (fun k _ => s.read_fits .blk k) _)).trans (dct_eq_dctSum _ hp hq)

/-- Settles O15: the check of one VALID bit, then the 64 double sums, each of which fits its element. -/
theorem dctStoresExactDoubleSum : Obligations.DctStoresExactDoubleSum := fun s =>
  ⟨fun hbit => congrArg _ (State.checkValid_notReady (sp := .blk) hbit),
    fun hbit => ⟨effect s .dct, congrArg _ (State.checkValid_ready (sp := .blk) (run := (effect · .dct)) hbit),
      fun _ hp _ hq => effect_dct_read s hp hq, s.fill_setValid_changesOnly .coef 64 _⟩⟩

/-! ### Linearity -/

theorem dct_add (a b : Nat → Int) (k : Nat) : dct (fun i => a i + b i) k = dct a k + dct b k := by
  simp only [dct, sum8_eq_sum, add_mul, sum_add_distrib, mul_add]

theorem dct_const_mul (c : Int) (b : Nat → Int) (k : Nat) : dct (fun i => c * b i) k = c * dct b k := by
  simp only [dct, sum8_eq_sum, mul_assoc, ← mul_sum]
  exact mul_left_comm _ _ _

theorem dct_zero (k : Nat) : dct (fun _ => 0) k = 0 := by
  simpa using dct_const_mul 0 (fun _ => 0) k

/-! ### Separability -/

theorem dctSum_eq_separable (b : Nat → Int) (p q : Nat) : dctSum b p q
    = norm p q * ∑ m ∈ range 8, (∑ n ∈ range 8, b (8 * m + n) * cosine n q) * cosine m p := by
  simp only [dctSum, sum_mul, mul_right_comm]

/-- Settles O30: the row sum takes the factor of the column frequency out of the inner sum. -/
theorem separableDctIsIdentical : Obligations.SeparableDctIsIdentical :=
  fun b p hp q hq => (dct_eq_dctSum b hp hq).trans (dctSum_eq_separable b p q)

/-- The transform of a block that is a function of the row times a function of the column. -/
theorem dct_product (f g : Nat → Int) {p q : Nat} (hp : p < 8) (hq : q < 8) :
    dct (fun i => f (i / 8) * g (i % 8)) (8 * p + q)
      = norm p q * ((∑ m ∈ range 8, f m * cosine m p) * ∑ n ∈ range 8, g n * cosine n q) := by
  rw [dct_eq_dctSum _ hp hq, dctSum, sum_mul_sum]
  refine congrArg _ (sum_congr rfl fun m _ => sum_congr rfl fun n hn => ?_)
  have hn8 := mem_range.1 hn
  have hrow : (8 * m + n) / 8 = m := by omega
  have hcol : (8 * m + n) % 8 = n := by omega
  rw [hrow, hcol]
  ring

theorem dct_row_block (f : Nat → Int) {p q : Nat} (hp : p < 8) (hq : q < 8) (hq0 : 0 < q) :
    dct (fun i => f (i / 8)) (8 * p + q) = 0 := by
  simpa [sum_cosine_eq_zero q hq hq0] using dct_product f (fun _ => 1) hp hq

theorem dct_column_block (f : Nat → Int) {p q : Nat} (hp : p < 8) (hq : q < 8) (hp0 : 0 < p) :
    dct (fun i => f (i % 8)) (8 * p + q) = 0 := by
  simpa [sum_cosine_eq_zero p hp hp0] using dct_product (fun _ => 1) f hp hq

/-- A constant block depends on the row only and on the column only. -/
theorem dct_const_pos (n0 : Int) {k : Nat} (hk : k < 64) (hpos : 0 < k) : dct (fun _ => n0) k = 0 := by
  have hp : k / 8 < 8 := by omega
  have hq : k % 8 < 8 := by omega
  rw [← Nat.div_add_mod k 8]
  obtain hp0 | hq0 : 0 < k / 8 ∨ 0 < k % 8 := by omega
  · exact dct_column_block (fun _ => n0) hp hq hp0
  · exact dct_row_block (fun _ => n0) hp hq hq0

/-! ### Index 0 -/

theorem sum_range_mul_eq_sum_rows (w h : Nat) (b : Nat → Int) :
    ∑ k ∈ range (w * h), b k = ∑ m ∈ range h, ∑ n ∈ range w, b (w * m + n) := by
  induction h with
  | zero => rfl
  | succ h ih => rw [Nat.mul_succ, sum_range_add, ih, sum_range_succ]

theorem cosine_zero_right : ∀ m < 8, cosine m 0 = 2 ^ 30 := by decide

/-- Both factors of a term are 2 to the 30 and NORM is 2 to the 27: the sum of the block times 2 to the 87. -/
theorem dct_at_zero (b : Nat → Int) : dct b 0 = 2 ^ 87 * ∑ k ∈ range 64, b k := by
  have hterm : ∀ m ∈ range 8, ∑ n ∈ range 8, b (8 * m + n) * cosine m 0 * cosine n 0
      = 2 ^ 60 * ∑ n ∈ range 8, b (8 * m + n) := fun m hm => by
    rw [mul_sum]
    refine sum_congr rfl fun n hn => ?_
    rw [cosine_zero_right m (mem_range.1 hm), cosine_zero_right n (mem_range.1 hn)]
    ring
  have hnorm : norm 0 0 * 2 ^ 60 = 2 ^ 87 := rfl
  rw [dct_eq_dctSum b (p := 0) (q := 0) (by decide) (by decide), dctSum, sum_congr rfl hterm, ← mul_sum,
    ← sum_range_mul_eq_sum_rows 8 8, ← mul_assoc, hnorm]

/-- Settles O29: (a) and (d) by linearity, (b) and (e) by the factored form, (c) by the entries at frequency 0. -/
theorem dctExactProperties : Obligations.DctExactProperties := by
  refine ⟨fun k _ => dct_zero k, fun n0 => ⟨?_, fun k hk hpos => dct_const_pos n0 hk hpos⟩, fun b => ?_,
    fun a b c k _ => ⟨dct_add a b k, dct_const_mul c b k⟩,
    fun f p hp q hq => ⟨dct_row_block f hp hq, dct_column_block f hp hq⟩⟩
  · rw [dct_at_zero, sum_const, card_range, nsmul_eq_mul]
    ring
  · rw [dct_at_zero]
    ring

end Sys2Proof.Machine
end

section
/-! The quantizer (42_quantizer.md R143 to R148): the scaled table, the division in both roundings, and the commands
QTBL and QNT. -/

namespace Sys2Proof.Machine

open Sys2Proof.Claims

/-! ### The scaled table -/

theorem effectiveQuality_eq_max_min (q : Int) : effectiveQuality q = max 1 (min 99 q) := by
  unfold effectiveQuality clamp
  split_ifs <;> omega

/-- The table sees the quality through the clamp alone. -/
theorem qtable_congr_quality {q q' : Int} (h : effectiveQuality q = effectiveQuality q') (c : Config) (kind : Kind)
    (c255 : Bool) (i : Nat) : qtable c kind q c255 i = qtable c kind q' c255 i := by
  simp only [qtable, h]

/-- Settles O28: the clamp takes a quality up to 1 to 1 and one from 99 on to 99. -/
theorem qualityIsClampedToLegalRange : Obligations.QualityIsClampedToLegalRange := by
  intro c kind q c255 i
  refine ⟨fun hq => qtable_congr_quality ?_ c kind c255 i, fun hq => qtable_congr_quality ?_ c kind c255 i⟩ <;>
    simp only [effectiveQuality_eq_max_min] <;> omega

/-- The base table of a kind (R141, R142). -/
def baseTable (c : Config) : Kind → List Nat
  | .lum => c.baseLum
  | .chr => c.baseChr

theorem baseTable_length (c : Config) (kind : Kind) : (baseTable c kind).length = 64 := by
  cases kind with
  | lum => exact c.baseLum_legal.1
  | chr => exact c.baseChr_legal.1

/-- Inside the table the default value of the look-up is not seen. -/
theorem baseEntry_eq_baseTable (c : Config) (kind : Kind) {i : Nat} (hi : i < 64) :
    baseEntry c kind i = ((baseTable c kind)[i]?.getD 0 : Nat) := by
  have hlt : i < (baseTable c kind).length := by rwa [baseTable_length]
  have hbase : baseEntry c kind i = ((baseTable c kind).getD i 1 : Nat) := by cases kind <;> rfl
  rw [hbase, List.getD_eq_getElem?_getD, List.getElem?_eq_getElem hlt]
  rfl

theorem floorDiv_eq_fdiv (n : Int) {d : Int} (hd : 0 ≤ d) : floorDiv n d = Int.fdiv n d :=
  (Int.fdiv_eq_ediv_of_nonneg n hd).symm

theorem qtable_eq_scaledEntry (c : Config) (kind : Kind) (q : Int) (c255 : Bool) {i : Nat} (hi : i < 64) :
    qtable c kind q c255 i = scaledEntry c kind q c255 i := by
  have hqe : 0 ≤ max 1 (min 99 q) := by omega
  simp only [qtable, scaledEntry, effectiveQuality_eq_max_min, baseEntry_eq_baseTable c kind hi,
    floorDiv_eq_fdiv _ hqe, floorDiv_eq_fdiv _ (show (0 : Int) ≤ 50 by decide)]
  cases kind <;> rfl

/-! ### The division -/

theorem truncDiv_eq_tdiv (n d : Int) : truncDiv n d = Int.tdiv n d := by
  unfold truncDiv floorDiv
  split
  · exact (Int.tdiv_eq_ediv_of_nonneg ‹_›).symm
  · rw [← Int.tdiv_eq_ediv_of_nonneg (by omega), Int.neg_tdiv, Int.neg_neg]

theorem coefDen_eq : coefDen = 4000000 * 2 ^ 90 := rfl

theorem quant_eq_quotient (rnd : Bool) (f : Int) {t : Int} (ht : 0 ≤ t) : quant rnd f t = quotient rnd f t := by
  have hd : 0 ≤ 2 * (t * (4000000 * 2 ^ 90)) := by positivity
  simp only [quant, quotient, coefDen_eq, nearDiv, floorDiv_eq_fdiv _ hd, truncDiv_eq_tdiv]

/-! ### What the units write -/

theorem unchangedOutside_mono {s t : State} {stored stored' : Space → Nat → Prop} (h : unchangedOutside s t stored)
    (hsub : ∀ sp i, stored sp i → stored' sp i) : unchangedOutside s t stored' :=
  fun sp i hnot => h sp i fun hin => hnot (hsub sp i hin)

section Units
variable (s : State) (kind : Kind) {i k : Nat}

theorem State.freshTable_eq_scaledEntry (hi : i < 64) : s.freshTable kind i
    = scaledEntry s.cfg kind s.csr.quality.toInt (s.csr.ctrl.getLsbD 1) i := qtable_eq_scaledEntry _ _ _ _ hi

theorem State.loadTable_read_freshTable (hi : i < 64) :
    (s.loadTable (s.freshTable kind)).read .qt i = s.freshTable kind i :=
  s.read_fill_lt hi (qtable_fits _ _ _ _ hi)

/-- A quotient is stored by its low 16 bits (R148). -/
theorem State.quantizeBy_read {t : Nat → Int} (hk : k < 64) (ht : 0 ≤ t k) : (s.quantizeBy t).read .qc k
    = (BitVec.ofInt 16 (quotient (s.csr.ctrl.getLsbD 0) (s.read .coef k) (t k))).toInt := by
  rw [← quant_eq_quotient _ _ ht]
  exact congrArg (elemValue .qc) (s.elem_fill_lt _ hk)

theorem quantizeFresh_read_qt (hi : i < 64) : (quantizeFresh kind s).read .qt i = s.freshTable kind i :=
  (State.read_fill_ne _ 64 _ i (by decide)).trans (s.loadTable_read_freshTable kind hi)

/-- The table that divides is the one left in QT, and building it keeps COEF and CTRL (R146). -/
theorem quantizeFresh_read_qc (hk : k < 64) : (quantizeFresh kind s).read .qc k = (BitVec.ofInt 16
    (quotient (s.csr.ctrl.getLsbD 0) (s.read .coef k) ((quantizeFresh kind s).read .qt k))).toInt := by
  have hpos : 1 ≤ s.freshTable kind k := (qtable_range _ _ _ _ hk).1
  have hcoef : (s.loadTable (s.freshTable kind)).read .coef k = s.read .coef k := s.read_fill_ne 64 _ k (by decide)
  rw [quantizeFresh_read_qt s kind hk, quantizeFresh, State.quantizeBy_read _ hk (by omega), hcoef]
  rfl

theorem quantizeFresh_changesOnly : changesOnly s (quantizeFresh kind s)
    { s.csr with valid := s.csr.valid ||| 0x0300 } fun sp i => (sp = .qt ∨ sp = .qc) ∧ i < 64 := by
  refine ⟨?_, quantizeFresh_sameModelFields s kind, unchangedOutside_trans
    (unchangedOutside_mono (s.fill_unchangedOutside .qt 64 _) fun sp i h => ⟨.inl h.1, h.2⟩)
    (unchangedOutside_mono (State.fill_unchangedOutside _ .qc 64 _) fun sp i h => ⟨.inr h.1, h.2⟩)⟩
  have hmask : validBits [.qt] ||| validBits [.qc] = 0x0300 := by decide
  simp [quantizeFresh, BitVec.or_assoc, hmask]

end Units

/-- Settles O16: no check stands before the table, and each entry, at most 50 times 255, fits its element. -/
theorem qtblBuildsScaledTable : Obligations.QtblBuildsScaledTable := by
  intro s kind
  refine ⟨effect s (.qtbl kind), rfl, fun i hi => ?_, s.fill_setValid_changesOnly .qt 64 _⟩
  have hread : (effect s (.qtbl kind)).read .qt i = s.freshTable kind i := s.loadTable_read_freshTable kind hi
  obtain ⟨hpos, hle⟩ := qtable_range s.cfg kind s.qualityReg s.c255 hi
  rw [hread]
  refine ⟨s.freshTable_eq_scaledEntry kind hi, hpos, ?_⟩
  rw [baseEntry_eq_baseTable s.cfg kind hi] at hle
  cases kind <;> exact hle

/-! ### The resident table -/

theorem exec_qnt_resident (kind : Kind) (s : State) :
    exec (.qnt kind true) s = .next (s.checkValid [.coef, .qt] quantizeResident) :=
  congrArg Host.Outcome.next (if_pos rfl)

/-- Settles O18: the resident form checks and divides without its `kind` operand. -/
theorem residentQntIgnoresKind : Obligations.ResidentQntIgnoresKind :=
  fun s => (exec_qnt_resident .lum s).trans (exec_qnt_resident .chr s).symm

section Resident
variable {s : State} {i : Nat}

theorem State.missing_cons (sp : Space) (rest : List Space) :
    s.missing (sp :: rest) = s.missing [sp] ||| s.missing rest := by
  apply BitVec.eq_of_getLsbD_eq
  intro j _
  simp [State.missing, validBits, Bool.and_or_distrib_right]

/-- A command that needs several spaces finds nothing missing exactly when all their VALID bits are 1. -/
theorem State.missing_eq_zero_iff {need : List Space} : s.missing need = 0 ↔ ∀ sp ∈ need, s.isValid sp = true := by
  induction need with
  | nil => simp [State.missing, validBits]
  | cons sp rest ih =>
    rw [State.missing_cons, List.forall_mem_cons, ← s.missing_one, ← ih]
    exact BitVec.or_eq_zero_iff

theorem missing_coef_qt_eq_zero_iff :
    s.missing [.coef, .qt] = 0 ↔ s.csr.valid.getLsbD 7 = true ∧ s.csr.valid.getLsbD 8 = true := by
  rw [State.missing_eq_zero_iff]
  simp [State.isValid, vbit]

theorem missing_coef_qt (s : State) : s.missing [.coef, .qt] = 0x0180 &&& ~~~ s.csr.valid := by
  have hmask : validBits [.coef, .qt] = 0x0180 := by decide
  rw [State.missing, hmask]

theorem exec_qnt_resident_notReady (kind : Kind)
    (h : ¬ (s.csr.valid.getLsbD 7 = true ∧ s.csr.valid.getLsbD 8 = true)) :
    exec (.qnt kind true) s = .next (faultState s 4 ((0x0180 &&& ~~~ s.csr.valid).setWidth 32)) := by
  rw [exec_qnt_resident, State.checkValid, if_neg (missing_coef_qt_eq_zero_iff.not.2 h), missing_coef_qt]
  rfl

theorem exec_qnt_resident_ready (kind : Kind)
    (h : s.csr.valid.getLsbD 7 = true ∧ s.csr.valid.getLsbD 8 = true) :
    exec (.qnt kind true) s = .next (quantizeResident s) := by
  rw [exec_qnt_resident, State.checkValid, if_pos (missing_coef_qt_eq_zero_iff.2 h)]

/-- The scan from index 0 stops at the lowest zero (R147). -/
theorem quantizeResident_of_zero (hi : i < 64) (hzero : s.read .qt i = 0) (hlow : ∀ j < i, s.read .qt j ≠ 0) :
    quantizeResident s = faultState s 2 (BitVec.ofNat 32 i) := by
  have hscan : s.zeroDivisor = some i := by
    simpa [State.zeroDivisor, List.find?_range_eq_some] using ⟨hzero, hi, hlow⟩
  rw [quantizeResident, hscan]
  rfl

theorem quantizeResident_of_nonzero (h : ∀ i < 64, s.read .qt i ≠ 0) :
    quantizeResident s = s.quantizeBy (s.read .qt) := by
  have hscan : s.zeroDivisor = none := by simpa [State.zeroDivisor] using h
  rw [quantizeResident, hscan]

theorem read_qt_nonneg (s : State) (k : Nat) : 0 ≤ s.read .qt k := Int.natCast_nonneg _

end Resident

/-- Settles O17: the fresh form checks COEF and divides by a table whose entries are at least 1; the resident form
checks COEF and QT and scans the table for a zero before it divides. -/
theorem qntDividesByTable : Obligations.QntDividesByTable := by
  intro s kind
  refine ⟨fun hcoef => ?_, fun hcoef => ?_, exec_qnt_resident_notReady kind, fun hcoef hqt i hi hzero hlow => ?_,
    fun hcoef hqt hnonzero => ?_⟩
  · exact congrArg _ (State.checkValid_notReady (sp := .coef) hcoef)
  · refine ⟨quantizeFresh kind s, congrArg _ (State.checkValid_ready (sp := .coef) hcoef), fun i hi => ?_,
      fun k hk => quantizeFresh_read_qc s kind hk, quantizeFresh_changesOnly s kind⟩
    exact (quantizeFresh_read_qt s kind hi).trans (s.freshTable_eq_scaledEntry kind hi)
  · rw [exec_qnt_resident_ready kind ⟨hcoef, hqt⟩, quantizeResident_of_zero hi hzero hlow]
  · rw [exec_qnt_resident_ready kind ⟨hcoef, hqt⟩, quantizeResident_of_nonzero hnonzero]
    exact ⟨_, rfl, fun k hk => s.quantizeBy_read hk (read_qt_nonneg s k), s.fill_setValid_changesOnly .qc 64 _⟩

end Sys2Proof.Machine
end

section
/-! The zig-zag reorderer (43_zigzag_rle.md R160 to R163): the command ZZ, and the scatter that undoes the gather. -/

namespace Sys2Proof.Machine

open Sys2Proof.Claims

/-! ### The index table -/

/-- The model's table is the printed one (R160). -/
theorem zzRom_eq_zigzagTable {i : Nat} (h : i < zigzagTable.length) : zzRom i = zigzagTable[i] :=
  (List.getElem_eq_getD 0).symm

/-- "It is well defined because ZZROM is a permutation" (R163). -/
theorem zigzagTable_perm_range : zigzagTable.Perm (List.range 64) := by decide

theorem exists_zzRom_eq {k : Nat} (hk : k < 64) : ∃ i < 64, zzRom i = k := by
  have hmem : k ∈ zigzagTable := zigzagTable_perm_range.mem_iff.2 (List.mem_range.2 hk)
  obtain ⟨i, hi, rfl⟩ := List.getElem_of_mem hmem
  exact ⟨i, hi, zzRom_eq_zigzagTable hi⟩

/-- Settles O31: every index is the table's entry at some position, and there both sides are the same element. -/
theorem zigzagScatterRestoresBlock : Obligations.ZigzagScatterRestoresBlock := by
  intro blk back hscatter k hk
  obtain ⟨i, hi, rfl⟩ := exists_zzRom_eq hk
  exact hscatter i hi

/-! ### ZZ -/

/-- QC and ZZ have one element type, so that a gathered value is stored as it is. -/
theorem effect_zz_read (s : State) {i : Nat} (h : i < zigzagTable.length) :
    (effect s .zz).read .zz i = s.read .qc zigzagTable[i] := by
  rw [← zzRom_eq_zigzagTable h]
  exact s.read_fill_lt h (s.read_fits .qc (zzRom i))

/-- Settles O19: the check of one VALID bit, then the 64 gathered values. -/
theorem zzGathersThroughIndexTable : Obligations.ZzGathersThroughIndexTable := fun s =>
  ⟨fun hbit => congrArg _ (State.checkValid_notReady (sp := .qc) hbit),
    fun hbit => ⟨effect s .zz, congrArg _ (State.checkValid_ready (sp := .qc) (run := (effect · .zz)) hbit),
      fun _ h => effect_zz_read s h, s.fill_setValid_changesOnly .zz 64 _⟩⟩

end Sys2Proof.Machine
end

section
/-! The run-length encoder (43_zigzag_rle.md R164 to R166). The model's runs are the maximal runs of the statements, by
induction over the sequence; all that is said of the tokens and of the command RLE follows from that. -/

namespace Sys2Proof.Machine

open Sys2Proof.Claims

/-! ### Maximal runs -/

@[simp] theorem expandRuns_nil : expandRuns [] = [] := rfl
@[simp] theorem expandRuns_cons (v : Int) (n : Nat) (ts : List (Int × Nat)) :
    expandRuns ((v, n) :: ts) = List.replicate n v ++ expandRuns ts := rfl

theorem length_expandRuns (ts : List (Int × Nat)) : (expandRuns ts).length = (ts.map Prod.snd).sum := by
  simp [expandRuns, List.length_flatMap]

theorem fst_mem_expandRuns {ts : List (Int × Nat)} {t : Int × Nat} (ht : t ∈ ts) (hpos : 1 ≤ t.2) :
    t.1 ∈ expandRuns ts :=
  List.mem_flatMap.2 ⟨t, ht, List.mem_replicate.2 ⟨by omega, rfl⟩⟩

/-- Putting one value before a sequence either lengthens its first run or starts a run of another value. -/
theorem maximalRuns_consRun {ts : List (Int × Nat)} {l : List Int} (v : Int) (h : maximalRuns ts l) :
    maximalRuns (consRun v ts) (v :: l) := by
  obtain ⟨rfl, hpos, hchain⟩ := h
  cases ts with
  | nil => simp [consRun, maximalRuns]
  | cons r rest =>
    obtain ⟨u, n⟩ := r
    rw [List.forall_mem_cons] at hpos
    by_cases huv : u = v
    · subst huv
      rw [consRun, if_pos rfl]
      refine ⟨by simp [List.replicate_succ], List.forall_mem_cons.2 ⟨by simp, hpos.2⟩, ?_⟩
      rw [List.isChain_cons] at hchain ⊢
      exact hchain
    · rw [consRun, if_neg huv]
      exact ⟨by simp, by simpa using hpos, List.isChain_cons_cons.2 ⟨Ne.symm huv, hchain⟩⟩

theorem maximalRuns_runs (l : List Int) : maximalRuns (runs l) l := by
  induction l with
  | nil => simp [runs, maximalRuns]
  | cons v rest ih => exact maximalRuns_consRun v ih

section Tokens
variable {ts : List (Int × Nat)} {l : List Int} {t : Int × Nat}

theorem maximalRuns_sum_snd (h : maximalRuns ts l) : (ts.map Prod.snd).sum = l.length := by
  rw [← length_expandRuns, h.1]

theorem maximalRuns_snd_le_length (h : maximalRuns ts l) (ht : t ∈ ts) : t.2 ≤ l.length :=
  maximalRuns_sum_snd h ▸ List.le_sum_of_mem (List.mem_map_of_mem ht)

theorem maximalRuns_fst_mem (h : maximalRuns ts l) (ht : t ∈ ts) : t.1 ∈ l := by
  obtain ⟨rfl, hpos, -⟩ := h
  exact fst_mem_expandRuns ht (hpos t ht)

end Tokens

/-! ### The tokens of a sequence -/

theorem dropLast_rle (l : List Int) : (rle l).dropLast = runs l := List.dropLast_concat

theorem length_rle (l : List Int) : (rle l).length = (runs l).length + 1 := List.length_append

/-- Settles O32: the tokens before the sentinel are maximal runs, which expand to the sequence. -/
theorem rleExpansionRestoresSequence : Obligations.RleExpansionRestoresSequence := by
  intro zz _
  obtain ⟨hexpand, -, -⟩ := maximalRuns_runs zz
  rw [dropLast_rle, hexpand]

/-- Settles O33: the tokens before the sentinel are maximal runs, at least one and at most 64 of them. -/
theorem rleTokenProperties : Obligations.RleTokenProperties := by
  intro zz hlen
  have hruns := maximalRuns_runs zz
  have hmin : 1 ≤ (runs zz).length := List.length_pos_iff.2 (runs_ne_nil (List.ne_nil_of_length_eq_add_one hlen))
  have hmax := runs_length_le zz
  obtain ⟨-, hpos, hchain⟩ := maximalRuns_runs zz
  rw [dropLast_rle, length_rle]
  refine ⟨by omega, by omega, List.getLast?_concat, fun t ht => ⟨hpos t ht, ?_⟩, ?_, hchain⟩
  · exact hlen ▸ maximalRuns_snd_le_length hruns ht
  · rw [maximalRuns_sum_snd hruns, hlen]

/-! ### Token words -/

section Fields
variable (v : BitVec 16) (z : BitVec 9) (n : BitVec 7)

theorem extractLsb_append_value : (v ++ z ++ n).extractLsb 31 16 = v :=
  (BitVec.extractLsb'_append_eq_of_le (by decide)).trans BitVec.extractLsb'_append_eq_left

theorem extractLsb_append_zeros : (v ++ z ++ n).extractLsb 15 7 = z :=
  (BitVec.extractLsb'_append_eq_of_le (by decide)).trans BitVec.extractLsb'_append_eq_right

theorem extractLsb_append_runLength : (v ++ z ++ n).extractLsb 6 0 = n := BitVec.extractLsb'_append_eq_right

end Fields

/-- A token's fields read back from its word where the value fits an element of ZZ and the run length seven bits. -/
theorem isToken_tokWord {t : Int × Nat} (hv : elemFits .zz t.1) (hn : t.2 < 128) : isToken (tokWord t) t := by
  have hlength : (BitVec.ofNat 7 t.2).toNat = t.2 := Nat.mod_eq_of_lt hn
  exact ⟨(congrArg BitVec.toInt (extractLsb_append_value ..)).trans (elemValue_elemBits hv),
    congrArg BitVec.toNat (extractLsb_append_zeros ..),
    (congrArg BitVec.toNat (extractLsb_append_runLength ..)).trans hlength⟩

theorem tokWord_sentinel : tokWord (0, 0) = 0#32 := by decide

/-- A run of a sequence held in ZZ fits a token word (10_state.md R49). -/
theorem isToken_tokWord_of_mem_runs {s : State} {t : Int × Nat} (ht : t ∈ runs (list64 (s.read .zz))) :
    isToken (tokWord t) t := by
  have hruns := maximalRuns_runs (list64 (s.read .zz))
  obtain ⟨i, -, hi⟩ := List.mem_map.1 (maximalRuns_fst_mem hruns ht)
  have hle : t.2 ≤ 64 := by simpa [list64] using maximalRuns_snd_le_length hruns ht
  exact isToken_tokWord (hi ▸ s.read_fits .zz i) (by omega)

/-! ### RLE -/

theorem toNat_tokn_loadTokens_rle (s : State) (f : Nat → Int) :
    (s.loadTokens (rle (list64 f))).csr.tokn.toNat = (rle (list64 f)).length := by
  have hlen := rle_list64_length f
  rw [State.loadTokens_csr, BitVec.toNat_ofNat]
  omega

theorem State.elem_loadTokens_lt (s : State) {ts : List (Int × Nat)} {k : Nat} (hk : k < ts.length) :
    (s.loadTokens ts).elem .tok k = tokWord ts[k] := by
  rw [State.elem_loadTokens, s.elem_fillBits_lt (by simpa using hk), List.getElem_map]

theorem State.fillBits_unchangedOutside (s : State) (sp : Space) (vs : List (BitVec sp.width)) :
    unchangedOutside s (s.fillBits sp vs) fun sp' i => sp' = sp ∧ i < vs.length := by
  intro sp' i hnot
  by_cases hsp : sp' = sp
  · subst hsp
    have hge : vs.length ≤ i := Nat.not_lt.1 fun hlt => hnot ⟨rfl, hlt⟩
    exact congrArg (elemValue sp') (s.elem_fillBits_ge hge)
  · exact congrArg (elemValue sp') (s.elem_fillBits_ne vs i hsp)

theorem State.loadTokens_unchangedOutside (s : State) (ts : List (Int × Nat)) :
    unchangedOutside s (s.loadTokens ts) fun sp i => sp = .tok ∧ i < ts.length := by
  have hfill := s.fillBits_unchangedOutside .tok (ts.map tokWord)
  rw [List.length_map] at hfill
  exact hfill

/-- TOK and TOKN after the tokens of the sequence that ZZ holds in `z` are loaded. -/
theorem State.loadTokens_holdsTokensOf (s z : State) :
    holdsTokensOf z (s.loadTokens (rle (list64 (z.read .zz)))) := by
  refine ⟨runs (list64 (z.read .zz)), maximalRuns_runs _,
    (toNat_tokn_loadTokens_rle s _).trans (length_rle _), fun k hk => ?_, ?_⟩
  · have hrun : (rle (list64 (z.read .zz)))[k]'(by rw [length_rle]; omega) = (runs (list64 (z.read .zz)))[k] :=
      List.getElem_append_left hk
    rw [s.elem_loadTokens_lt (by rw [length_rle]; omega), hrun]
    exact isToken_tokWord_of_mem_runs (List.getElem_mem hk)
  · rw [s.elem_loadTokens_lt (by rw [length_rle]; omega)]
    exact (congrArg tokWord (List.getElem_concat_length rfl _)).trans tokWord_sentinel

theorem effect_rle_changesOnly (s : State) : changesOnly s (effect s .rle)
    { s.csr with valid := s.csr.valid ||| 0x0800, tokn := (effect s .rle).csr.tokn }
    fun sp i => sp = .tok ∧ i < (effect s .rle).csr.tokn.toNat := by
  have htokn : (effect s .rle).csr.tokn.toNat = (rle (list64 (s.read .zz))).length := toNat_tokn_loadTokens_rle s _
  refine ⟨rfl, ⟨rfl, rfl, rfl, rfl⟩, ?_⟩
  rw [htokn]
  exact s.loadTokens_unchangedOutside _

/-- Settles O20: the check of one VALID bit, then the tokens of the sequence in ZZ. -/
theorem rleWritesMaximalRuns : Obligations.RleWritesMaximalRuns := fun s =>
  ⟨fun hbit => congrArg _ (State.checkValid_notReady (sp := .zz) hbit),
    fun hbit => ⟨effect s .rle, congrArg _ (State.checkValid_ready (sp := .zz) (run := (effect · .rle)) hbit),
      s.loadTokens_holdsTokensOf s, effect_rle_changesOnly s⟩⟩

end Sys2Proof.Machine
end

section
/-! The order in which a loop visits the elements of a space (20_memory.md R74, 44_pipeline.md R191). The canonical form
makes a space's cells the same list whenever they hold the same elements. -/

namespace Sys2Proof.Machine

/-! ### Canonical cells are determined by their elements -/

section Canonical
variable {w : Nat} {c d : Cells w}

theorem cellsWf_mono {m n : Nat} (hmn : m ≤ n) (h : cellsWf m c = true) : cellsWf n c = true := by
  rw [cellsWf_iff] at h ⊢
  exact ⟨h.1, fun e he => (h.2 e he).trans_le hmn⟩

theorem mem_iff_cellsGet (h : c.Pairwise fun a b => a.1 < b.1) (e : Nat × BitVec w) :
    e ∈ c ↔ cellsGet c e.1 = some e.2 := by
  obtain ⟨k, v⟩ := e
  induction c with
  | nil => simp
  | cons x rest ih =>
    obtain ⟨i, u⟩ := x
    obtain ⟨hlt, hrest⟩ := List.pairwise_cons.1 h
    rw [List.mem_cons, cellsGet_cons, ih hrest]
    by_cases hik : i = k
    · subst hik
      have hnot : cellsGet rest i ≠ some v := fun hget => lt_irrefl i (hlt _ ((ih hrest).2 hget))
      simp [hnot, eq_comm]
    · simp [hik, Ne.symm hik]

theorem cells_ext {m n : Nat} (hc : cellsWf m c = true) (hd : cellsWf n d = true)
    (h : ∀ i, cellsGet c i = cellsGet d i) : c = d := by
  obtain ⟨hc, -⟩ := (cellsWf_iff m c).1 hc
  obtain ⟨hd, -⟩ := (cellsWf_iff n d).1 hd
  have hnodup {l : Cells w} (hl : l.Pairwise fun a b => a.1 < b.1) : l.Nodup :=
    hl.imp fun hab => ne_of_apply_ne Prod.fst hab.ne
  have hperm : c.Perm d := (List.perm_ext_iff_of_nodup (hnodup hc) (hnodup hd)).2 fun e => by
    rw [mem_iff_cellsGet hc, mem_iff_cellsGet hd, h]
  exact hperm.eq_of_pairwise (fun _ _ _ _ hab hba => absurd hba (lt_asymm hab)) hc hd

end Canonical

/-! ### One element after another -/

section Visits
variable {w : Nat}

/-- The cells after elements `order` of a space have been written, one after another. -/
def cellsVisit (g : Nat → BitVec w) (order : List Nat) (c : Cells w) : Cells w :=
  order.foldl (fun c k => cellsPut c k (g k)) c

theorem cellsGet_visit (g : Nat → BitVec w) (order : List Nat) (c : Cells w) (i : Nat) :
    cellsGet (cellsVisit g order c) i = if i ∈ order then some (g i) else cellsGet c i := by
  induction order generalizing c with
  | nil => rfl
  | cons k rest ih =>
    rw [cellsVisit, List.foldl_cons, ← cellsVisit, ih]
    by_cases hik : i = k
    · subst hik
      simp [cellsGet_put_same]
    · simp [hik, cellsGet_put_ne]

theorem cellsWf_visit (g : Nat → BitVec w) {order : List Nat} {c : Cells w} {n : Nat} (h : cellsWf n c = true)
    (hlt : ∀ k ∈ order, k < n) : cellsWf n (cellsVisit g order c) = true := by
  induction order generalizing c with
  | nil => exact h
  | cons k rest ih =>
    rw [List.forall_mem_cons] at hlt
    exact ih (cellsWf_put _ h hlt.1) hlt.2

/-- A loop over elements `0 .. n-1`, in whatever order, leaves the cells of the whole-space write. -/
theorem cellsVisit_eq_cellsFill (g : Nat → BitVec w) {order : List Nat} {c : Cells w} {m n : Nat}
    (h : cellsWf m c = true) (horder : order.Perm (List.range n)) :
    cellsVisit g order c = cellsFill c ((List.range n).map g) := by
  have hmem (i : Nat) : i ∈ order ↔ i < n := by rw [horder.mem_iff, List.mem_range]
  have hwf : cellsWf (max m n) c = true := cellsWf_mono (le_max_left m n) h
  refine cells_ext (cellsWf_visit g hwf fun k hk => ((hmem k).1 hk).trans_le (le_max_right m n))
    (cellsWf_fill hwf (by simp)) fun i => ?_
  rw [cellsGet_visit, cellsGet_fill]
  simp [hmem]

end Visits

/-! ### The element writes of a loop -/

theorem Memory.set_get (m : Memory) (sp : Space) : m.set sp (m.get sp) = m := by cases sp <;> rfl

theorem Memory.set_set (m : Memory) (sp : Space) (c d : Cells sp.width) : (m.set sp c).set sp d = m.set sp d := by
  cases sp <;> rfl

theorem State.foldl_write (s : State) (sp : Space) (f : Nat → Int) (order : List Nat) :
    order.foldl (fun u k => u.write sp k (f k)) s
      = { s with mem := s.mem.set sp (cellsVisit (fun k => elemBits sp (f k)) order (s.mem.get sp)) } := by
  induction order generalizing s with
  | nil => simp only [cellsVisit, List.foldl_nil, Memory.set_get]
  | cons k rest ih =>
    rw [List.foldl_cons, ih]
    simp only [State.write, Memory.set_set, Memory.get_set_same, cellsVisit, List.foldl_cons]

/-- Settles O46: both ways of writing leave canonical cells that hold the same elements. -/
theorem loopOrderIsNotObservable : Obligations.LoopOrderIsNotObservable := by
  intro s sp n f order hwf horder
  rw [State.foldl_write, cellsVisit_eq_cellsFill _ ((Memory.wf_iff _ _).1 hwf sp) horder]
  rfl

end Sys2Proof.Machine
end

section
/-! The composite command BLOCK (44_pipeline.md R180 to R182): what its writes leave in the six per-block spaces, and
its equality with the five unit commands. -/

namespace Sys2Proof.Machine

open Sys2Proof.Claims

/-! ### What BLOCK leaves in the per-block spaces -/

section Reads
variable (s : State)

theorem State.read_loadTokens_ne (ts : List (Int × Nat)) {sp : Space} (k : Nat) (h : sp ≠ .tok) :
    (s.loadTokens ts).read sp k = s.read sp k :=
  congrArg (elemValue sp) (s.elem_fillBits_ne _ k h)

@[simp] theorem State.read_setValid (l : List Space) (sp : Space) (k : Nat) :
    (s.setValid l).read sp k = s.read sp k := rfl

theorem unchangedOutside_setValid {s t : State} {stored : Space → Nat → Prop} (l : List Space)
    (h : unchangedOutside s t stored) : unchangedOutside s (t.setValid l) stored :=
  fun sp k hk => h sp k hk

theorem State.fill_unchangedOutside_of {sp : Space} {n : Nat} (f : Nat → Int) {stored : Space → Nat → Prop}
    (h : ∀ k < n, stored sp k) : unchangedOutside s (s.fill sp n f) stored :=
  unchangedOutside_mono (s.fill_unchangedOutside sp n f) fun _ k hk => hk.1 ▸ h k hk.2

end Reads

section Block
variable (s : State) (pl : Plane) (i j : Nat) {k : Nat}

theorem State.blockCoef_fits (k : Nat) : elemFits .coef (s.blockCoef pl i j k) :=
  dct_fits (fun m _ => s.blkx_fits pl i j m) k

theorem State.blockTable_pos (hk : k < 64) : 1 ≤ s.blockTable pl k := (qtable_range _ _ _ _ hk).1

theorem State.blockTable_fits (hk : k < 64) : elemFits .qt (s.blockTable pl k) := qtable_fits _ _ _ _ hk

theorem State.blockZigzag_fits (hk : k < 64) : elemFits .zz (s.blockZigzag pl i j k) :=
  (s.blockQuant_fits pl i j (zzRom_lt hk)).2

/-- Each of the five spaces holds its stage of `block_pipe`: every value fits its element, and no later write of the
command reaches the space. -/
theorem writeBlock_read (hk : k < 64) :
    (writeBlock pl i j s).read .blk k = s.blkx pl i j k
    ∧ (writeBlock pl i j s).read .coef k = s.blockCoef pl i j k
    ∧ (writeBlock pl i j s).read .qt k = s.blockTable pl k
    ∧ (writeBlock pl i j s).read .qc k = s.blockQuant pl i j k
    ∧ (writeBlock pl i j s).read .zz k = s.blockZigzag pl i j k := by
  unfold writeBlock
  simp (disch := decide) only [State.read_setValid, State.read_loadTokens_ne, State.read_fill_ne]
  exact ⟨State.read_fill_lt _ hk (s.blkx_fits pl i j k), State.read_fill_lt _ hk (s.blockCoef_fits pl i j k),
    State.read_fill_lt _ hk (s.blockTable_fits pl hk), State.read_fill_lt _ hk (s.blockQuant_fits pl i j hk).1,
    State.read_fill_lt _ hk (s.blockZigzag_fits pl i j hk)⟩

theorem State.blockTokens_length : 2 ≤ (s.blockTokens pl i j).length ∧ (s.blockTokens pl i j).length ≤ 65 :=
  rle_list64_length _

theorem toNat_tokn_writeBlock : (writeBlock pl i j s).csr.tokn.toNat = (s.blockTokens pl i j).length := by
  have hlen := s.blockTokens_length pl i j
  have htokn : (writeBlock pl i j s).csr.tokn = BitVec.ofNat 32 (s.blockTokens pl i j).length :=
    congrArg Csrs.tokn (writeBlock_csr s pl i j)
  rw [htokn, BitVec.toNat_ofNat]
  omega

theorem holdsTokensOf_setValid {z t : State} (l : List Space) (h : holdsTokensOf z t) :
    holdsTokensOf z (t.setValid l) := by
  obtain ⟨ts, hruns, htokn, htok, hend⟩ := h
  exact ⟨ts, hruns, htokn, htok, hend⟩

/-- TOK and TOKN hold the tokens of any state with the block's sequence in ZZ, so of BLOCK's own end state. -/
theorem writeBlock_holdsTokensOf {z : State} (h : ∀ k < 64, z.read .zz k = s.blockZigzag pl i j k) :
    holdsTokensOf z (writeBlock pl i j s) := by
  have htokens : s.blockTokens pl i j = rle (list64 (z.read .zz)) :=
    congrArg rle (list64_congr fun k hk => (h k hk).symm)
  unfold writeBlock
  rw [htokens]
  exact holdsTokensOf_setValid _ (State.loadTokens_holdsTokensOf _ z)

/-- What BLOCK stores to, when it writes `n` tokens. -/
def blockStores (n : Nat) (sp : Space) (k : Nat) : Prop :=
  (sp ∈ [Space.blk, .coef, .qt, .qc, .zz] ∧ k < 64) ∨ (sp = .tok ∧ k < n)

theorem writeBlock_unchangedOutside :
    unchangedOutside s (writeBlock pl i j s) (blockStores (s.blockTokens pl i j).length) := by
  have hfill (u : State) {sp : Space} (f : Nat → Int) (hsp : sp ∈ [Space.blk, .coef, .qt, .qc, .zz]) :
      unchangedOutside u (u.fill sp 64 f) (blockStores (s.blockTokens pl i j).length) :=
    u.fill_unchangedOutside_of f fun _ hk => .inl ⟨hsp, hk⟩
  refine unchangedOutside_setValid _ ?_
  exact unchangedOutside_trans (hfill _ (sp := .blk) _ (by decide)) <|
    unchangedOutside_trans (hfill _ (sp := .coef) _ (by decide)) <|
    unchangedOutside_trans (hfill _ (sp := .qt) _ (by decide)) <|
    unchangedOutside_trans (hfill _ (sp := .qc) _ (by decide)) <|
    unchangedOutside_trans (hfill _ (sp := .zz) _ (by decide)) <|
    unchangedOutside_mono (State.loadTokens_unchangedOutside _ _) fun _ _ => .inr

theorem writeBlock_changesOnly : changesOnly s (writeBlock pl i j s)
    { s.csr with valid := s.csr.valid ||| 0x0FC0, tokn := (writeBlock pl i j s).csr.tokn }
    (blockStores (writeBlock pl i j s).csr.tokn.toNat) := by
  have hmask : validBits blockSpaces = 0x0FC0 := by decide
  refine ⟨?_, writeBlock_sameModelFields s pl i j, ?_⟩
  · rw [writeBlock_csr, hmask]
  · rw [toNat_tokn_writeBlock]
    exact writeBlock_unchangedOutside s pl i j

end Block

/-- Settles O21: the two checks in their order, then six writes, each the unit's function of the values that the write
before it has stored exactly. -/
theorem blockRunsUnitsThreeToSeven : Obligations.BlockRunsUnitsThreeToSeven := by
  intro s pl
  obtain ⟨hillegal, hnotReady, hrun⟩ := checks_cases s (planeSpace pl) (effect · (.block pl))
  rw [vbit_planeSpace] at hnotReady hrun
  refine ⟨fun hgeom => congrArg _ (hillegal hgeom), fun hgeom hbit => congrArg _ (hnotReady hgeom hbit),
    fun hgeom hbit => ⟨effect s (.block pl), congrArg _ (hrun hgeom hbit), ?_⟩⟩
  have hread (k : Nat) (hk : k < 64) := writeBlock_read s pl s.offI s.offJ hk
  refine ⟨fun x hx y hy => ?_, fun p hp q hq => ?_, fun i hi => ?_, fun k hk => ?_, fun i hi => ?_, ?_,
    writeBlock_changesOnly s pl s.offI s.offJ⟩
  · obtain ⟨hblk, -⟩ := hread (8 * x + y) (by omega)
    exact hblk.trans (s.blkx_eq_blockSample pl s.offI s.offJ x hy)
  · obtain ⟨-, hcoef, -⟩ := hread (8 * p + q) (by omega)
    rw [← dct_eq_dctSum _ hp hq]
    exact hcoef.trans (dct_congr (fun k hk => (hread k hk).1.symm) _)
  · obtain ⟨-, -, hqt, -⟩ := hread i hi
    refine hqt.trans ((s.freshTable_eq_scaledEntry _ hi).trans ?_)
    cases pl <;> rfl
  · obtain ⟨-, hcoef, hqt, hqc, -⟩ := hread k hk
    have hpos := s.blockTable_pos pl hk
    rw [effect, hcoef, hqt, hqc, ← quant_eq_quotient _ _ (by omega)]
    rfl
  · obtain ⟨-, -, -, -, hzz⟩ := hread i hi
    rw [← zzRom_eq_zigzagTable hi]
    obtain ⟨-, -, -, hqc, -⟩ := hread (zzRom i) (zzRom_lt hi)
    exact hzz.trans hqc.symm
  · refine writeBlock_holdsTokensOf s pl _ _ fun k hk => ?_
    obtain ⟨-, -, -, -, hzz⟩ := hread k hk
    exact hzz

end Sys2Proof.Machine
end

section
/-! Commands issued one after another: what the checks of the next command see of the state the one before it leaves. -/

namespace Sys2Proof.Machine

open Sys2Proof.Claims

section Sequence
variable {s : State} {i : Instr} {sp : Space}

theorem exec_of_geometry_check (hexec : exec i s = .next (s.checkGeometry fun s => s.checkValid [sp] (effect · i)))
    (hgeom : geometryOk s) (hbit : s.csr.valid.getLsbD (vbit sp) = true) : exec i s = .next (effect s i) := by
  obtain ⟨-, -, hrun⟩ := checks_cases s sp (effect · i)
  rw [hexec, hrun hgeom hbit]

theorem exec_of_valid_check (hexec : exec i s = .next (s.checkValid [sp] (effect · i)))
    (hbit : s.csr.valid.getLsbD (vbit sp) = true) : exec i s = .next (effect s i) := by
  rw [hexec, State.checkValid_ready hbit]

theorem effect_geometryOk (i : Instr) (h : geometryOk s) : geometryOk (effect s i) := by
  simp only [geometryOk, widthOk, heightOk]
  rw [effect_csr, effect_cfg]
  exact h

/-- A completing command sets the VALID bits of what it writes and, but for FRAME, clears none. -/
theorem effect_validBit (hinv : sp ∉ invalidates i) : (effect s i).csr.valid.getLsbD (vbit sp)
    = (s.csr.valid.getLsbD (vbit sp) || decide (sp ∈ outputs i)) := by
  rw [effect_valid, BitVec.getLsbD_and, BitVec.getLsbD_or, BitVec.getLsbD_not, getLsbD_validBits, getLsbD_validBits]
  simp [hinv, vbit_lt]

end Sequence

/-! ### VALID bits set in two steps -/

theorem validBits_append (l l' : List Space) : validBits (l ++ l') = validBits l ||| validBits l' := by
  induction l with
  | nil => exact BitVec.zero_or.symm
  | cons sp rest ih => rw [List.cons_append, validBits, validBits, ih, BitVec.or_assoc]

theorem State.setValid_setValid (s : State) (l l' : List Space) :
    (s.setValid l).setValid l' = s.setValid (l ++ l') := by
  simp only [State.setValid, validBits_append, BitVec.or_assoc]

end Sys2Proof.Machine
end

section
/-! BLOCK is its five unit commands (44_pipeline.md R181). Each unit reads from its input space the exact values the
unit before it computed, so that its effect is the corresponding write of BLOCK and one more VALID bit. -/

namespace Sys2Proof.Machine

open Sys2Proof.Claims

/-! ### A unit's effect by the values it reads -/

section UnitEffects
variable {s u : State} {l : List Space} {f : Nat → Int} (hu : u = s.setValid l)
include hu

theorem effect_dct_of_read (h : ∀ k < 64, s.read .blk k = f k) :
    effect u .dct = (s.fill .coef 64 (dct f)).setValid (l ++ [.coef]) := by
  have hfill : s.fill .coef 64 (dct (s.read .blk)) = s.fill .coef 64 (dct f) :=
    s.fill_congr .coef 64 fun k _ => dct_congr h k
  rw [hu, ← State.setValid_setValid, ← hfill]
  rfl

theorem effect_qnt_of_read (kind : Kind) (h : ∀ k < 64, s.read .coef k = f k) :
    effect u (.qnt kind false) = ((s.fill .qt 64 (s.freshTable kind)).fill .qc 64
      fun k => quant s.rnd (f k) (s.freshTable kind k)).setValid (l ++ [.qt] ++ [.qc]) := by
  have hcoef (k : Nat) (hk : k < 64) : (s.fill .qt 64 (s.freshTable kind)).read .coef k = f k :=
    (s.read_fill_ne 64 _ k (by decide)).trans (h k hk)
  have hfill := State.fill_congr (s.fill .qt 64 (s.freshTable kind)) .qc 64
    fun k hk => congrArg (quant s.rnd · (s.freshTable kind k)) (hcoef k hk)
  rw [hu, ← State.setValid_setValid, ← State.setValid_setValid, ← hfill]
  rfl

theorem effect_zz_of_read (h : ∀ k < 64, s.read .qc k = f k) :
    effect u .zz = (s.fill .zz 64 (zigzag f)).setValid (l ++ [.zz]) := by
  have hfill : s.fill .zz 64 (zigzag (s.read .qc)) = s.fill .zz 64 (zigzag f) :=
    s.fill_congr .zz 64 fun k hk => h (zzRom k) (zzRom_lt hk)
  rw [hu, ← State.setValid_setValid, ← hfill]
  rfl

theorem effect_rle_of_read (h : ∀ k < 64, s.read .zz k = f k) :
    effect u .rle = (s.loadTokens (rle (list64 f))).setValid (l ++ [.tok]) := by
  rw [hu, ← State.setValid_setValid, ← list64_congr h]
  rfl

end UnitEffects

/-! ### The five effects in turn -/

theorem unit_effects_eq_block (s : State) (pl : Plane) :
    effect (effect (effect (effect (effect s (.blkx pl)) .dct) (.qnt (planeKind pl) false)) .zz) .rle
      = effect s (.block pl) := by
  have hblkx : effect s (.blkx pl) = (s.fill .blk 64 (s.blkx pl s.offI s.offJ)).setValid [.blk] := rfl
  have hdct := effect_dct_of_read hblkx fun k hk => s.read_fill_lt hk (s.blkx_fits pl s.offI s.offJ k)
  have hqnt := effect_qnt_of_read hdct (planeKind pl)
    fun k hk => State.read_fill_lt _ hk (s.blockCoef_fits pl s.offI s.offJ k)
  have hzz := effect_zz_of_read hqnt
    fun k hk => State.read_fill_lt _ hk (s.blockQuant_fits pl s.offI s.offJ hk).1
  have hrle := effect_rle_of_read hzz
    fun k hk => State.read_fill_lt _ hk (s.blockZigzag_fits pl s.offI s.offJ hk)
  exact hrle

/-- The VALID bit each unit needs is set by the unit before it. -/
theorem exec_units {s : State} {pl : Plane} {kind : Kind} (hkind : kind = planeKind pl) (hgeom : geometryOk s)
    (hbit : s.csr.valid.getLsbD (vbit (planeSpace pl)) = true) :
    ∃ s1 s2 s3 s4 s5, exec (.blkx pl) s = .next s1 ∧ exec .dct s1 = .next s2
      ∧ exec (.qnt kind false) s2 = .next s3 ∧ exec .zz s3 = .next s4 ∧ exec .rle s4 = .next s5
      ∧ exec (.block pl) s = .next s5 := by
  subst hkind
  have hset (u : State) {i : Instr} {sp : Space} (hout : sp ∈ outputs i) (hinv : sp ∉ invalidates i) :
      (effect u i).csr.valid.getLsbD (vbit sp) = true := by
    rw [effect_validBit hinv, decide_eq_true hout, Bool.or_true]
  exact ⟨_, _, _, _, _, exec_of_geometry_check rfl hgeom hbit,
    exec_of_valid_check (sp := .blk) rfl (hset s (by simp [outputs]) (by simp [invalidates])),
    exec_of_valid_check (sp := .coef) rfl (hset _ (by simp [outputs]) (by simp [invalidates])),
    exec_of_valid_check (sp := .qc) rfl (hset _ (by simp [outputs]) (by simp [invalidates])),
    exec_of_valid_check (sp := .zz) rfl (hset _ (by simp [outputs]) (by simp [invalidates])),
    (exec_of_geometry_check rfl hgeom hbit).trans (congrArg _ (unit_effects_eq_block s pl).symm)⟩

/-- Settles O22: the five unit commands complete, and their effects in turn are the effect of BLOCK. -/
theorem blockEqualsUnitCommands : Obligations.BlockEqualsUnitCommands := by
  intro s pl hgeom hbit
  rw [← vbit_planeSpace] at hbit
  exact exec_units (by cases pl <;> rfl) hgeom hbit

end Sys2Proof.Machine
end

section
/-! The composite command FRAME (44_pipeline.md R183 to R185): the five planes and the registers. -/

namespace Sys2Proof.Machine

open Sys2Proof.Claims

/-! ### The statements about planes depend on what is read alone -/

section Congr
variable {s s' t u : State}

theorem holdsColourTransform_congr (h : ∀ sp ∈ [Space.py, .pcb, .pcr], ∀ k, u.read sp k = t.read sp k)
    (ht : holdsColourTransform s t) : holdsColourTransform s u := by
  intro r hr c hc
  simp only [h .py (by decide), h .pcb (by decide), h .pcr (by decide)]
  exact ht r hr c hc

theorem holdsSubsample_congr {src dst : Space} (hheight : imageHeight s' = imageHeight s)
    (hwidth : imageWidth s' = imageWidth s) (hsrc : ∀ k, s'.read src k = s.read src k)
    (hdst : ∀ k, u.read dst k = t.read dst k) (ht : holdsSubsample s t src dst) : holdsSubsample s' u src dst := by
  have hsample (r c : Nat) : sampleAt s' src r c = sampleAt s src r c := by
    simp only [sampleAt, hheight, hwidth, hsrc]
  intro r hr c hc
  rw [hheight] at hr
  rw [hwidth] at hc
  simp only [hwidth, hsample, hdst]
  exact ht r hr c hc

theorem State.forget_unchangedOutside (s : State) (l : List Space) :
    unchangedOutside s (s.forget l) fun sp _ => sp ∈ l :=
  fun _ k h => congrArg (elemValue _) (s.elem_forget_ne k h)

end Congr

/-! ### The writes of FRAME -/

section Frame
variable (s : State)

/-- The tokens of the image, plane after plane, from the planes as FRAME has written them (R184). -/
def frameTokens : List (Int × Nat) :=
  (writeAllPlanes s).planeTokens .y ++ (writeAllPlanes s).planeTokens .scb ++ (writeAllPlanes s).planeTokens .scr

theorem frameTokens_length_le {s : State} (hgeom : geometryOk s) : (frameTokens s).length ≤ outCap s.cfg := by
  have hfit := writeAllPlanes_tokens_fit hgeom
  rwa [writeAllPlanes_cfg] at hfit

theorem writeFrame_csr : (writeFrame s).csr =
    { s.csr with
      valid := (s.csr.valid ||| 0x103E) &&& 0x103F
      tokn := 0
      outn := BitVec.ofNat 32 (frameTokens s).length
      pstart0 := 0
      pstart1 := BitVec.ofNat 32 ((writeAllPlanes s).planeTokens .y).length
      pstart2 := BitVec.ofNat 32
        ((writeAllPlanes s).planeTokens .y ++ (writeAllPlanes s).planeTokens .scb).length } := by
  have hset : validBits [.py, .pcb, .pcr, .scb, .scr, .out] = 0x103E := by decide
  have hclear : ~~~ validBits blockSpaces = 0x103F := by decide
  rw [writeFrame, State.loadOutput_csr, hset, hclear]
  rfl

/-- The three counts are below OUTCAP, so that no register cuts them off. -/
theorem writeFrame_counts {s : State} (hgeom : geometryOk s) :
    (writeFrame s).csr.outn.toNat = (frameTokens s).length
    ∧ (writeFrame s).csr.pstart1.toNat = ((writeAllPlanes s).planeTokens .y).length
    ∧ (writeFrame s).csr.pstart2.toNat
      = ((writeAllPlanes s).planeTokens .y ++ (writeAllPlanes s).planeTokens .scb).length := by
  have hle := frameTokens_length_le hgeom
  have hcap := outCap_lt s.cfg
  rw [writeFrame_csr]
  simp only [frameTokens, List.length_append, BitVec.toNat_ofNat] at hle ⊢
  omega

theorem writeFrame_imageSize {u : State} (hu : u.csr = s.csr) :
    imageHeight (writeFrame s) = imageHeight u ∧ imageWidth (writeFrame s) = imageWidth u := by
  simp only [imageHeight, imageWidth, writeFrame_csr, hu, and_self]

/-! What the planes read as: no write after a plane's own loop reaches it. -/

theorem writeSubsampled_read_ne (pl : Plane) {sp : Space} (h : sp ≠ subDest pl) (k : Nat) :
    (writeSubsampled pl s).read sp k = s.read sp k := s.read_fillPlane_ne _ k h

theorem writeAllPlanes_read_ne {sp : Space} (h : sp ∉ [.scb, .scr]) (k : Nat) :
    (writeAllPlanes s).read sp k = (writeColorPlanes s).read sp k := by
  simp only [List.mem_cons, List.not_mem_nil, or_false, not_or] at h
  obtain ⟨hscb, hscr⟩ := h
  rw [writeAllPlanes, writeSubsampled_read_ne _ .cr hscr, writeSubsampled_read_ne _ .cb hscb]

theorem State.loadOutput_read_ne (ty tcb tcr : List (Int × Nat)) {sp : Space} (hout : sp ≠ .out)
    (hblk : sp ∉ blockSpaces) (k : Nat) : (s.loadOutput ty tcb tcr).read sp k = s.read sp k := by
  obtain ⟨-, -, -, hdraws⟩ := s.loadOutput_sameModelFields ty tcb tcr
  exact congrArg (elemValue sp) (State.elem_congr (State.loadOutput_get_ne _ _ _ hout hblk) hdraws k)

/-- The five planes CSC and SUB make. -/
def imagePlanes : List Space := [.py, .pcb, .pcr, .scb, .scr]

theorem imagePlanes_ne_out {sp : Space} (h : sp ∈ imagePlanes) : sp ≠ .out ∧ sp ∉ blockSpaces :=
  (by decide : ∀ sp ∈ imagePlanes, sp ≠ .out ∧ sp ∉ blockSpaces) sp h

theorem writeFrame_get_plane {sp : Space} (h : sp ∈ imagePlanes) :
    (writeFrame s).mem.get sp = (writeAllPlanes s).mem.get sp :=
  State.loadOutput_get_ne _ _ _ (imagePlanes_ne_out h).1 (imagePlanes_ne_out h).2

theorem writeFrame_read_plane {sp : Space} (h : sp ∈ imagePlanes) (k : Nat) :
    (writeFrame s).read sp k = (writeAllPlanes s).read sp k :=
  State.loadOutput_read_ne _ _ _ _ (imagePlanes_ne_out h).1 (imagePlanes_ne_out h).2 k

theorem writeFrame_holdsColourTransform : holdsColourTransform s (writeFrame s) := by
  refine holdsColourTransform_congr (fun sp hsp k => ?_) (writeColorPlanes_holdsColourTransform s)
  have hplane : ∀ sp ∈ [Space.py, .pcb, .pcr], sp ∈ imagePlanes ∧ sp ∉ [Space.scb, .scr] := by decide
  obtain ⟨hmem, hne⟩ := hplane sp hsp
  rw [writeFrame_read_plane s hmem, writeAllPlanes_read_ne s hne]

/-- FRAME subsamples Cb before Cr, and neither of the two loops writes the chroma planes. -/
theorem writeFrame_holdsSubsample :
    holdsSubsample (writeFrame s) (writeFrame s) .pcb .scb
    ∧ holdsSubsample (writeFrame s) (writeFrame s) .pcr .scr := by
  obtain ⟨hheight, hwidth⟩ := writeFrame_imageSize s (writeColorPlanes_csr s)
  obtain ⟨hheight', hwidth'⟩ := writeFrame_imageSize s ((writeSubsampled_csr (writeColorPlanes s) .cb).trans
    (writeColorPlanes_csr s))
  refine ⟨holdsSubsample_congr hheight hwidth (fun k => ?_) (fun k => ?_)
      (writeSubsampled_holdsSubsample _ (pl := .cb) rfl),
    holdsSubsample_congr hheight' hwidth' (fun k => ?_) (fun k => ?_)
      (writeSubsampled_holdsSubsample _ (pl := .cr) rfl)⟩
  · rw [writeFrame_read_plane s (by decide), writeAllPlanes_read_ne s (by decide)]
  · rw [writeFrame_read_plane s (by decide), writeAllPlanes, writeSubsampled_read_ne _ .cr (by decide)]
  · rw [writeFrame_read_plane s (by decide), writeAllPlanes, writeSubsampled_read_ne _ .cr (by decide)]
  · rw [writeFrame_read_plane s (by decide), writeAllPlanes]

/-- What FRAME stores to, when it writes `n` tokens to OUT. -/
def frameStores (s : State) (n : Nat) (sp : Space) (k : Nat) : Prop :=
  (sp ∈ [Space.py, .pcb, .pcr] ∧ k < imageHeight s * imageWidth s)
    ∨ (sp ∈ [Space.scb, .scr] ∧ k < ((imageHeight s + 1) / 2) * ((imageWidth s + 1) / 2))
    ∨ (sp = .out ∧ k < n)
    ∨ sp ∈ [Space.blk, .coef, .qt, .qc, .zz, .tok]

theorem writeAllPlanes_unchangedOutside (n : Nat) :
    unchangedOutside s (writeAllPlanes s) (frameStores s n) := by
  have hcolor := unchangedOutside_mono (writeColorPlanes_unchangedOutside s)
    (stored' := frameStores s n) fun _ _ => .inl
  have hsub (u : State) (pl : Plane) (hu : u.csr = s.csr) (hpl : subDest pl ∈ [Space.scb, .scr]) :
      unchangedOutside u (writeSubsampled pl u) (frameStores s n) :=
    unchangedOutside_mono (writeSubsampled_unchangedOutside u pl) fun sp k h => by
      simp only [imageHeight, imageWidth, hu] at h
      exact .inr (.inl ⟨h.1 ▸ hpl, h.2⟩)
  have hcsr := writeColorPlanes_csr s
  exact unchangedOutside_trans hcolor <| unchangedOutside_trans (hsub _ .cb hcsr (by decide))
    (hsub _ .cr ((writeSubsampled_csr _ .cb).trans hcsr) (by decide))

theorem State.loadOutput_unchangedOutside (ty tcb tcr : List (Int × Nat)) {stored : Space → Nat → Prop}
    (hout : ∀ k < (ty ++ tcb ++ tcr).length, stored .out k) (hblk : ∀ sp ∈ blockSpaces, ∀ k, stored sp k) :
    unchangedOutside s (s.loadOutput ty tcb tcr) stored := by
  have hfill := s.fillBits_unchangedOutside .out ((ty ++ tcb ++ tcr).map tokWord)
  rw [List.length_map] at hfill
  have hforget := (s.fillBits .out ((ty ++ tcb ++ tcr).map tokWord)).forget_unchangedOutside blockSpaces
  have hboth := unchangedOutside_trans (unchangedOutside_mono hfill fun _ k h => h.1 ▸ hout k h.2)
    (unchangedOutside_mono hforget fun sp k h => hblk sp h k)
  exact fun sp k h => hboth sp k h

theorem writeFrame_unchangedOutside :
    unchangedOutside s (writeFrame s) (frameStores s (frameTokens s).length) :=
  unchangedOutside_trans (writeAllPlanes_unchangedOutside s _)
    (State.loadOutput_unchangedOutside _ _ _ _ (fun _ hk => .inr (.inr (.inl ⟨rfl, hk⟩)))
      fun _ hsp _ => .inr (.inr (.inr hsp)))

theorem writeFrame_changesOnly {s : State} (hgeom : geometryOk s) : changesOnly s (writeFrame s)
    { s.csr with
      valid := (s.csr.valid ||| 0x103E) &&& 0x103F
      tokn := 0
      outn := (writeFrame s).csr.outn
      pstart0 := 0
      pstart1 := (writeFrame s).csr.pstart1
      pstart2 := (writeFrame s).csr.pstart2 } (frameStores s (writeFrame s).csr.outn.toNat) := by
  obtain ⟨houtn, -, -⟩ := writeFrame_counts hgeom
  refine ⟨by rw [writeFrame_csr], writeFrame_sameModelFields s, ?_⟩
  rw [houtn]
  exact writeFrame_unchangedOutside s

end Frame

/-- Settles O23: the two checks in their order, then the planes, which the writes to OUT and to the registers leave as
they are. -/
theorem frameWritesPlanesAndRegisters : Obligations.FrameWritesPlanesAndRegisters := by
  intro s
  obtain ⟨hillegal, hnotReady, hrun⟩ := checks_cases s .pix writeFrame
  obtain ⟨hcb, hcr⟩ := writeFrame_holdsSubsample s
  have hpstart0 : (writeFrame s).csr.pstart0 = 0 := by rw [writeFrame_csr]
  exact ⟨fun hgeom => congrArg Host.Outcome.next (hillegal hgeom),
    fun hgeom hbit => congrArg Host.Outcome.next (hnotReady hgeom hbit),
    fun hgeom hbit => ⟨writeFrame s, congrArg Host.Outcome.next (hrun hgeom hbit),
      writeFrame_holdsColourTransform s, hcb, hcr, hpstart0, writeFrame_changesOnly hgeom⟩⟩

end Sys2Proof.Machine
end

section
/-! OUT after FRAME, and what the host reads from TOK when it runs BLOCK itself (44_pipeline.md R184, R185). -/

namespace Sys2Proof.Machine

open Sys2Proof.Claims

/-! ### Token words read back -/

theorem State.map_elem_fillBits (s : State) {sp : Space} {vs : List (BitVec sp.width)} {n : Nat} (hn : n ≤ vs.length) :
    (List.range n).map (fun k => (s.fillBits sp vs).elem sp k) = vs.take n := by
  refine List.ext_getElem (by simpa using hn) fun k hk hk' => ?_
  simp only [List.length_map, List.length_range] at hk
  rw [List.getElem_map, List.getElem_range, s.elem_fillBits_lt (by omega), List.getElem_take]

theorem State.elem_out_loadOutput (s : State) (ty tcb tcr : List (Int × Nat)) (k : Nat) :
    (s.loadOutput ty tcb tcr).elem .out k = (s.fillBits .out ((ty ++ tcb ++ tcr).map tokWord)).elem .out k := by
  rw [State.loadOutput, State.elem_clearValid, State.elem_setValid, State.elem_csr,
    State.elem_forget_ne _ k (by decide)]

theorem outWords_writeFrame (s : State) {n : Nat} (hn : n ≤ (frameTokens s).length) :
    outWords (writeFrame s) n = ((frameTokens s).map tokWord).take n := by
  simp only [outWords, writeFrame, State.elem_out_loadOutput]
  exact State.map_elem_fillBits _ (by rwa [List.length_map])

theorem writeBlock_tokenWords (s : State) (pl : Plane) (i j : Nat) :
    (List.range (writeBlock pl i j s).csr.tokn.toNat).map (fun k => (writeBlock pl i j s).elem .tok k)
      = (s.blockTokens pl i j).map tokWord := by
  have hlen : ((s.blockTokens pl i j).map tokWord).length = (s.blockTokens pl i j).length := List.length_map _
  rw [toNat_tokn_writeBlock, ← hlen]
  simp only [writeBlock, State.elem_setValid, State.elem_loadTokens]
  exact (State.map_elem_fillBits _ (le_refl _)).trans List.take_length

/-! ### What the tokens of a block depend on -/

/-- The block offsets are operands of BLOCK, not of `block_pipe`, and no VALID bit is. -/
theorem State.blockTokens_setCsr (s : State) {c : Csrs} (hctrl : c.ctrl = s.csr.ctrl) (hwidth : c.width = s.csr.width)
    (hheight : c.height = s.csr.height) (hquality : c.quality = s.csr.quality) (pl : Plane) (i j : Nat) :
    ({ s with csr := c } : State).blockTokens pl i j = s.blockTokens pl i j := by
  have hrows : ({ s with csr := c } : State).rows pl = s.rows pl := by
    cases pl <;> simp only [State.rows, State.imgH, State.heightReg, hheight]
  have hcols : ({ s with csr := c } : State).cols pl = s.cols pl := by
    cases pl <;> simp only [State.cols, State.imgW, State.widthReg, hwidth]
  have hblkx : ({ s with csr := c } : State).blkx pl i j = s.blkx pl i j := by
    funext k
    simp only [State.blkx, hrows, hcols, State.read, State.elem_csr]
  have htable : ({ s with csr := c } : State).blockTable pl = s.blockTable pl := by
    simp only [State.blockTable, State.freshTable, State.qualityReg, State.c255, hctrl, hquality]
  have hrnd : ({ s with csr := c } : State).rnd = s.rnd := by simp only [State.rnd, hctrl]
  have hquant : ({ s with csr := c } : State).blockQuant pl i j = s.blockQuant pl i j := by
    funext k
    simp only [State.blockQuant, State.blockCoef, hblkx, htable, hrnd]
  simp only [State.blockTokens, State.blockZigzag, hquant]

theorem State.blockTokens_setValid (s : State) (l : List Space) (pl : Plane) (i j : Nat) :
    (s.setValid l).blockTokens pl i j = s.blockTokens pl i j := s.blockTokens_setCsr rfl rfl rfl rfl pl i j

theorem State.planeTokens_setValid (s : State) (l : List Space) (pl : Plane) :
    (s.setValid l).planeTokens pl = s.planeTokens pl := by
  have hrows : (s.setValid l).rows pl = s.rows pl := by cases pl <;> rfl
  have hcols : (s.setValid l).cols pl = s.cols pl := by cases pl <;> rfl
  simp only [State.planeTokens, hrows, hcols, State.blockTokens_setValid]

/-! ### The host's own loop -/

/-- The host's two register writes before a BLOCK (R185). -/
def State.withOffsets (s : State) (i j : Nat) : State :=
  writeCsr (writeCsr s 7 (BitVec.ofNat 32 i)) 8 (BitVec.ofNat 32 j)

theorem State.withOffsets_offI (s : State) {i : Nat} (j : Nat) (hi : i < 2 ^ 32) : (s.withOffsets i j).offI = i :=
  Nat.mod_eq_of_lt hi

theorem State.withOffsets_offJ (s : State) (i : Nat) {j : Nat} (hj : j < 2 ^ 32) : (s.withOffsets i j).offJ = j :=
  Nat.mod_eq_of_lt hj

theorem State.withOffsets_blockTokens (s : State) (i j : Nat) : (s.withOffsets i j).blockTokens = s.blockTokens := by
  funext pl i' j'
  exact s.blockTokens_setCsr rfl rfl rfl rfl pl i' j'

theorem lt_of_mem_blockOffsets {rows cols : Nat} {ij : Nat × Nat} (h : ij ∈ blockOffsets rows cols) :
    ij.1 < rows ∧ ij.2 < cols := by
  simp only [blockOffsets, ceilDiv, List.mem_flatMap, List.mem_map, List.mem_range] at h
  obtain ⟨a, ha, b, hb, rfl⟩ := h
  omega

section HostLoop
variable {s : State} {pl : Plane} (hgeom : geometryOk s)
include hgeom

theorem State.plane_size_le (pl : Plane) : s.rows pl ≤ 32768 ∧ s.cols pl ≤ 32768 := by
  have hh := (State.imgH_le hgeom).trans s.cfg.maxH_legal.2
  have hw := (State.imgW_le hgeom).trans s.cfg.maxW_legal.2
  cases pl <;> simp only [State.rows, State.cols, ceilDiv] <;> omega

variable (hbit : s.csr.valid.getLsbD (vbit (planeSpace pl)) = true)
include hbit

theorem hostBlockTokens_eq {i j : Nat} (hi : i < 2 ^ 32) (hj : j < 2 ^ 32) :
    hostBlockTokens s pl i j = (s.blockTokens pl i j).map tokWord := by
  have hexec : exec (.block pl) (s.withOffsets i j) = .next (effect (s.withOffsets i j) (.block pl)) :=
    exec_of_geometry_check rfl hgeom hbit
  rw [effect, s.withOffsets_offI j hi, s.withOffsets_offJ i hj] at hexec
  rw [hostBlockTokens, ← State.withOffsets, hexec, ← s.withOffsets_blockTokens i j]
  exact writeBlock_tokenWords _ pl i j

theorem hostPlaneTokens_eq : hostPlaneTokens s pl = (s.planeTokens pl).map tokWord := by
  have hoffsets : offsetsOf (planeRows s pl) (planeCols s pl) = blockOffsets (s.rows pl) (s.cols pl) := by
    cases pl <;> rfl
  obtain ⟨hrows, hcols⟩ := State.plane_size_le hgeom pl
  rw [hostPlaneTokens, hoffsets, State.planeTokens, List.map_flatMap]
  refine List.flatMap_congr fun ij hij => ?_
  obtain ⟨hi, hj⟩ := lt_of_mem_blockOffsets hij
  exact hostBlockTokens_eq hgeom hbit (by omega) (by omega)

end HostLoop

/-! ### FRAME and the host's commands -/

theorem writeSubsampled_setValid (s : State) (pl : Plane) (l : List Space) :
    writeSubsampled pl (s.setValid l) = (writeSubsampled pl s).setValid l := rfl

/-- CSC and the two SUB leave the planes of FRAME. -/
theorem plane_effects_eq (s : State) : effect (effect (effect s .csc) (.sub .cb)) (.sub .cr)
    = (writeAllPlanes s).setValid imagePlanes := by
  have hcsc : effect s .csc = (writeColorPlanes s).setValid [.py, .pcb, .pcr] := rfl
  have hsub (u : State) (pl : Plane) (l : List Space) :
      effect (u.setValid l) (.sub pl) = (writeSubsampled pl u).setValid (l ++ [subDest pl]) := by
    rw [effect, writeSubsampled_setValid, State.setValid_setValid]
  rw [hcsc, hsub, hsub]
  rfl

theorem State.setValid_validBit (s : State) {l : List Space} {sp : Space} (h : sp ∈ l) :
    (s.setValid l).csr.valid.getLsbD (vbit sp) = true := by
  rw [State.setValid_csr, BitVec.getLsbD_or, getLsbD_validBits, decide_eq_true h, Bool.or_true]

theorem exec_planes {s : State} (hgeom : geometryOk s) (hbit : s.csr.valid.getLsbD 0 = true) :
    ∃ s1 s2, exec .csc s = .next s1 ∧ exec (.sub .cb) s1 = .next s2
      ∧ exec (.sub .cr) s2 = .next ((writeAllPlanes s).setValid imagePlanes) := by
  have hcb : (effect s .csc).csr.valid.getLsbD (vbit .pcb) = true := by
    rw [effect_validBit (by simp [invalidates])]
    simp [outputs]
  have hcr : (effect (effect s .csc) (.sub .cb)).csr.valid.getLsbD (vbit .pcr) = true := by
    rw [effect_validBit (by simp [invalidates]), effect_validBit (by simp [invalidates])]
    simp [outputs]
  have hgeom1 := effect_geometryOk .csc hgeom
  refine ⟨effect s .csc, effect (effect s .csc) (.sub .cb), exec_of_geometry_check (sp := .pix) rfl hgeom hbit,
    exec_of_geometry_check (exec_sub _ rfl) hgeom1 hcb, ?_⟩
  rw [← plane_effects_eq]
  exact exec_of_geometry_check (exec_sub _ rfl) (effect_geometryOk (.sub .cb) hgeom1) hcr

theorem exec_frame {s : State} (hgeom : geometryOk s) (hbit : s.csr.valid.getLsbD 0 = true) :
    exec .frame s = .next (writeFrame s) := exec_of_geometry_check (sp := .pix) rfl hgeom hbit

theorem State.setValid_geometryOk {s : State} (l : List Space) (h : geometryOk s) : geometryOk (s.setValid l) := h

theorem writeAllPlanes_geometryOk {s : State} (h : geometryOk s) : geometryOk (writeAllPlanes s) :=
  (State.geomLegal_congr (writeAllPlanes_csr s) (writeAllPlanes_cfg s)).2 h

/-- A block's tokens depend on nothing in which the host's state and that inside FRAME differ. -/
theorem hostPlaneTokens_planes {s : State} (hgeom : geometryOk s) {l : List Space} {pl : Plane}
    (hpl : planeSpace pl ∈ l) :
    hostPlaneTokens ((writeAllPlanes s).setValid l) pl = ((writeAllPlanes s).planeTokens pl).map tokWord := by
  rw [hostPlaneTokens_eq (State.setValid_geometryOk l (writeAllPlanes_geometryOk hgeom))
    (State.setValid_validBit _ hpl), State.planeTokens_setValid]

/-- Settles O24: FRAME and the host start their blocks from the same planes and take them in the same order. -/
theorem frameEqualsHostDrivenLoop : Obligations.FrameEqualsHostDrivenLoop := by
  intro s hgeom hbit
  obtain ⟨s1, s2, hcsc, hcb, hcr⟩ := exec_planes hgeom hbit
  obtain ⟨houtn, hpstart1, hpstart2⟩ := writeFrame_counts hgeom
  have hplane (sp : Space) (h : sp ∈ imagePlanes) : (writeFrame s).mem.get sp
      = ((writeAllPlanes s).setValid imagePlanes).mem.get sp := writeFrame_get_plane s h
  have hy := hostPlaneTokens_planes hgeom (l := imagePlanes) (pl := .y) (by decide)
  have hscb := hostPlaneTokens_planes hgeom (l := imagePlanes) (pl := .scb) (by decide)
  have hscr := hostPlaneTokens_planes hgeom (l := imagePlanes) (pl := .scr) (by decide)
  refine ⟨s1, s2, _, writeFrame s, hcsc, hcb, hcr, exec_frame hgeom hbit, hplane .py (by decide),
    hplane .pcb (by decide), hplane .pcr (by decide), hplane .scb (by decide), hplane .scr (by decide), ?_⟩
  rw [hy, hscb, hscr, ← List.map_append, ← List.map_append, List.length_map, List.length_map]
  refine ⟨?_, hpstart1, hpstart2⟩
  rw [houtn, outWords_writeFrame s (le_refl _)]
  exact List.take_of_length_le (List.length_map _).le

end Sys2Proof.Machine
end

section
/-! The layout of OUT after FRAME (44_pipeline.md R184): each plane's range is the words of its blocks, and a block has
2 to 65 words of which one, the sentinel, is zero. -/

namespace Sys2Proof.Machine

open Sys2Proof.Claims

/-! ### One zero word for each block -/

/-- The run length of a token stands in bits 6 to 0 of its word (10_state.md R49). -/
theorem tokWord_ne_zero {t : Int × Nat} (hpos : 1 ≤ t.2) (hlt : t.2 < 128) : tokWord t ≠ 0 := by
  intro h
  have hfield : BitVec.ofNat 7 t.2 = (0 : Word).extractLsb 6 0 := by
    rw [← h]
    exact (extractLsb_append_runLength ..).symm
  have hnat : t.2 % 128 = 0 := congrArg BitVec.toNat hfield
  omega

theorem State.count_zero_blockTokens (s : State) (pl : Plane) (i j : Nat) :
    ((s.blockTokens pl i j).map tokWord).count 0 = 1 := by
  have hruns := maximalRuns_runs (list64 (s.blockZigzag pl i j))
  have hzero : (0 : Word) ∉ (runs (list64 (s.blockZigzag pl i j))).map tokWord := fun hmem => by
    obtain ⟨t, ht, h0⟩ := List.mem_map.1 hmem
    have hle : t.2 ≤ 64 := by simpa [list64] using maximalRuns_snd_le_length hruns ht
    obtain ⟨-, hpos, -⟩ := hruns
    exact tokWord_ne_zero (hpos t ht) (by omega) h0
  rw [State.blockTokens, rle, List.map_append, List.count_append, List.count_eq_zero.2 hzero, Nat.zero_add]
  exact List.count_singleton_self

/-! ### The words of a plane -/

section Plane
variable (s : State) (pl : Plane)

theorem ceilDiv_mul_eq_blockCount : ceilDiv (s.rows pl) 8 * ceilDiv (s.cols pl) 8 = blockCount s pl := by
  cases pl <;> rfl

theorem State.planeTokens_length_bounds :
    2 * blockCount s pl ≤ (s.planeTokens pl).length ∧ (s.planeTokens pl).length ≤ 65 * blockCount s pl := by
  have hmin : ∀ n ∈ (blockOffsets (s.rows pl) (s.cols pl)).map fun ij => (s.blockTokens pl ij.1 ij.2).length,
      2 ≤ n := by
    intro n hn
    obtain ⟨ij, -, rfl⟩ := List.mem_map.1 hn
    exact (s.blockTokens_length pl ij.1 ij.2).1
  have hsum := List.card_nsmul_le_sum _ 2 hmin
  rw [List.length_map, blockOffsets_length, smul_eq_mul, Nat.mul_comm, ← List.length_flatMap] at hsum
  rw [← ceilDiv_mul_eq_blockCount]
  exact ⟨hsum, s.planeTokens_length_le pl⟩

theorem State.count_zero_planeTokens : ((s.planeTokens pl).map tokWord).count 0 = blockCount s pl := by
  rw [State.planeTokens, List.map_flatMap, List.count_flatMap, ← ceilDiv_mul_eq_blockCount, ← blockOffsets_length]
  simp only [Function.comp_def, State.count_zero_blockTokens, List.map_const', List.sum_replicate, smul_eq_mul,
    Nat.mul_one]

end Plane

theorem writeAllPlanes_blockCount (s : State) (pl : Plane) : blockCount (writeAllPlanes s) pl = blockCount s pl := by
  have hsize : imageHeight (writeAllPlanes s) = imageHeight s ∧ imageWidth (writeAllPlanes s) = imageWidth s := by
    simp only [imageHeight, imageWidth, writeAllPlanes_csr, and_self]
  obtain ⟨hheight, hwidth⟩ := hsize
  cases pl <;> simp only [blockCount, planeRows, planeCols, hheight, hwidth]

/-! ### The three ranges -/

/-- Words of three lists of tokens back to back, cut at the end of the first and of the second. -/
theorem map_tokWord_ranges (a b c : List (Int × Nat)) :
    ((a ++ b ++ c).map tokWord).take a.length = a.map tokWord
    ∧ (((a ++ b ++ c).map tokWord).take (a ++ b).length).drop a.length = b.map tokWord
    ∧ ((a ++ b ++ c).map tokWord).drop (a ++ b).length = c.map tokWord := by
  refine ⟨?_, ?_, ?_⟩
  · rw [← List.map_take, List.append_assoc, List.take_left]
  · rw [← List.map_take, List.take_left, ← List.map_drop, List.drop_left]
  · rw [← List.map_drop, List.drop_left]

/-- The range of each plane holds the words of its blocks. -/
theorem outWords_writeFrame_ranges {s : State} (hgeom : geometryOk s) :
    (outWords (writeFrame s) (writeFrame s).csr.outn.toNat).take (writeFrame s).csr.pstart1.toNat
      = ((writeAllPlanes s).planeTokens .y).map tokWord
    ∧ (outWords (writeFrame s) (writeFrame s).csr.pstart2.toNat).drop (writeFrame s).csr.pstart1.toNat
      = ((writeAllPlanes s).planeTokens .scb).map tokWord
    ∧ (outWords (writeFrame s) (writeFrame s).csr.outn.toNat).drop (writeFrame s).csr.pstart2.toNat
      = ((writeAllPlanes s).planeTokens .scr).map tokWord := by
  obtain ⟨houtn, hpstart1, hpstart2⟩ := writeFrame_counts hgeom
  have hall : outWords (writeFrame s) (frameTokens s).length = (frameTokens s).map tokWord :=
    (outWords_writeFrame s (le_refl _)).trans (List.take_of_length_le (List.length_map _).le)
  have hle : ((writeAllPlanes s).planeTokens .y ++ (writeAllPlanes s).planeTokens .scb).length
      ≤ (frameTokens s).length := by
    simp only [frameTokens, List.length_append]
    omega
  rw [houtn, hpstart1, hpstart2, hall, outWords_writeFrame s hle]
  exact map_tokWord_ranges _ _ _

/-- Settles O25: the counts of a plane are sums over its blocks, and every block has 2 to 65 words and one sentinel. -/
theorem frameOutputLayout : Obligations.FrameOutputLayout := by
  intro s hgeom hbit
  obtain ⟨houtn, hpstart1, hpstart2⟩ := writeFrame_counts hgeom
  obtain ⟨hy, hscb, hscr⟩ := outWords_writeFrame_ranges hgeom
  have hlen (pl : Plane) := (writeAllPlanes s).planeTokens_length_bounds pl
  have hzeros (pl : Plane) := (writeAllPlanes s).count_zero_planeTokens pl
  simp only [writeAllPlanes_blockCount] at hlen hzeros
  obtain ⟨hymin, hymax⟩ := hlen .y
  obtain ⟨hscbmin, hscbmax⟩ := hlen .scb
  obtain ⟨hscrmin, hscrmax⟩ := hlen .scr
  have hcap := frameTokens_length_le hgeom
  have hpstart0 : (writeFrame s).csr.pstart0 = 0 := by rw [writeFrame_csr]
  refine ⟨writeFrame s, exec_frame hgeom hbit, hpstart0, ?_⟩
  rw [hy, hscb, hscr, hzeros, hzeros, hzeros, houtn, hpstart1, hpstart2]
  simp only [frameTokens, List.length_append, and_true] at hcap ⊢
  omega

end Sys2Proof.Machine
end

section
/-! The fault record (60_exceptions.md R200 to R211): what one command reports, what it then leaves alone, and how the
record stands until HostReset. -/

namespace Sys2Proof.Machine

open Sys2Proof.Claims

/-! ### HostCmd -/

section HostCmd
variable {s : State} {cw : Word} {i : Instr}

theorem State.faulted_iff : s.faulted = true ↔ s.csr.status = 1#1 := beq_iff_eq

theorem hostCmd_of_faulted (h : s.csr.status = 1#1) : hostCmd cw s = .next s := if_pos (State.faulted_iff.2 h)

theorem State.not_faulted (h : s.csr.status = 0#1) : ¬ s.faulted = true := by simp [State.faulted_iff, h]

theorem hostCmd_of_legal (h : s.csr.status = 0#1) (hdecode : decode cw = .ok i) : hostCmd cw s = exec i s := by
  rw [hostCmd, if_neg (State.not_faulted h), hdecode]

theorem hostCmd_of_illegal (h : s.csr.status = 0#1) (hdecode : ∀ i, decode cw ≠ .ok i) :
    hostCmd cw s = .next (faultState s 3 cw) := by
  rw [hostCmd, if_neg (State.not_faulted h)]
  cases hcw : decode cw with
  | ok i => exact absurd hcw (hdecode i)
  | error e => rfl

end HostCmd

/-- Settles O5: a step with no action to perform is the identity. -/
theorem idleBlockHoldsItsState : Obligations.IdleBlockHoldsItsState := fun _ => step_nil

/-- Settles O7: a word that decodes is on the list of R85, so a word off the list raises IllegalCommand. -/
theorem illegalWordRaisesIllegalCommand : Obligations.IllegalWordRaisesIllegalCommand := by
  intro s cw rest hp hstatus hlist
  have hdecode (i : Instr) : decode cw ≠ .ok i := fun h =>
    hlist (cw, i) (mem_legalWords_iff_encode.2 (decode_eq_ok_iff_encode.1 h)) rfl
  exact (step_cons hp).trans (hostCmd_of_illegal (s := s.advance rest) hstatus hdecode)

/-! ### Who writes the fault record -/

/-- STATUS, FCODE and FINFO are as they were. -/
def sameFaultRecord (s t : State) : Prop :=
  t.csr.status = s.csr.status ∧ t.csr.fcode = s.csr.fcode ∧ t.csr.finfo = s.csr.finfo

theorem effect_sameFaultRecord (s : State) (i : Instr) : sameFaultRecord s (effect s i) := by
  rw [sameFaultRecord, effect_csr]
  exact ⟨rfl, rfl, rfl⟩

/-- The host's reads and writes leave the record alone: the three registers are read-only to it (R21). -/
theorem perform_sameFaultRecord {s t : State} {a : HostAction} (hreset : a ≠ .reset) (hcmd : ∀ cw, a ≠ .command cw)
    (h : perform a s = .next t) : sameFaultRecord s t := by
  cases a with
  | reset => exact absurd rfl hreset
  | command cw => exact absurd rfl (hcmd cw)
  | writeCsr n v =>
    injection h with h
    obtain ⟨hstatus, hfcode, hfinfo, -⟩ := writeCsr_readOnly s n v
    exact h ▸ ⟨hstatus, hfcode, hfinfo⟩
  | writeMem sp k v =>
    injection h with h
    rw [← h, sameFaultRecord, hostWriteMem_csr]
    exact ⟨rfl, rfl, rfl⟩
  | readCsr n | readMem sp k =>
    injection h with h
    exact h ▸ ⟨rfl, rfl, rfl⟩

/-- With a fault recorded nothing but HostReset writes the record: a command is dropped (R207). -/
theorem perform_sameFaultRecord_of_faulted {s t : State} {a : HostAction} (hstatus : s.csr.status = 1#1)
    (hreset : a ≠ .reset) (h : perform a s = .next t) : sameFaultRecord s t := by
  by_cases hcmd : ∃ cw, a = .command cw
  · obtain ⟨cw, rfl⟩ := hcmd
    obtain rfl : s = t := by simpa [perform, hostCmd_of_faulted hstatus] using h
    exact ⟨rfl, rfl, rfl⟩
  · exact perform_sameFaultRecord hreset (not_exists.1 hcmd) h

/-- Settles O9: the reads and writes keep the record, a command is dropped, and HostReset clears it. -/
theorem faultRecordStandsUntilReset : Obligations.FaultRecordStandsUntilReset := by
  intro s t hstatus ht
  cases hp : s.pending with
  | nil =>
    obtain rfl : s = t := by simpa [step_nil hp] using ht
    exact ⟨fun _ => ⟨hstatus, rfl, rfl⟩, nofun⟩
  | cons a rest =>
    rw [step_cons hp] at ht
    refine ⟨fun hreset => ?_, fun rest' hreset => ?_⟩
    · have ha : a ≠ .reset := fun h => hreset rest (h ▸ rfl)
      obtain ⟨hst, hfcode, hfinfo⟩ := perform_sameFaultRecord_of_faulted (s := s.advance rest) hstatus ha ht
      exact ⟨hst.trans hstatus, hfcode, hfinfo⟩
    · injection hreset with ha
      subst ha
      injection ht with ht
      exact ht ▸ ⟨rfl, rfl, rfl⟩

/-- Settles O11: a command that has its effect leaves STATUS at 0, so one that ends with FAULT = 1 has only raised. -/
theorem faultingCommandChangesNothingElse : Obligations.FaultingCommandChangesNothingElse := by
  intro i s t hstatus ht hfault
  obtain ⟨c, info, -, rfl⟩ | ⟨-, rfl⟩ := ends_of_exec ht
  · exact ⟨rfl, s.raise_sameModelFields c info, rfl⟩
  · obtain ⟨hkeeps, -⟩ := effect_sameFaultRecord s i
    rw [hkeeps, hstatus] at hfault
    exact absurd hfault (by decide)

/-! ### The host's actions with FAULT = 1 and with FAULT = 0 -/

/-- The state with STATUS.FAULT at 0 and all else as it is. -/
def State.clearFault (s : State) : State := { s with csr := { s.csr with status := 0#1 } }

section ClearFault
variable (s : State)

theorem writeCsr_clearFault (n : Nat) (v : Word) : writeCsr s.clearFault n v = (writeCsr s n v).clearFault := by
  by_cases hn : n ∈ [0, 4, 5, 6, 7, 8, 9]
  · simp only [List.mem_cons, List.not_mem_nil, or_false] at hn
    obtain rfl | rfl | rfl | rfl | rfl | rfl | rfl := hn <;> rfl
  · rw [writeCsr_ignored _ v hn, writeCsr_ignored _ v hn]

theorem hostWriteMem_clearFault (sp : Space) (k : Nat) (v : Int) :
    hostWriteMem s.clearFault sp k v = (hostWriteMem s sp k v).clearFault := by
  obtain hk | hk := Nat.lt_or_ge k (spaceSize s.cfg sp)
  · rw [hostWriteMem_of_lt s v hk, hostWriteMem_of_lt s.clearFault v hk]
    rfl
  · rw [hostWriteMem_of_ge s v hk, hostWriteMem_of_ge s.clearFault v hk]

/-- STATUS is register 1; every other number reads the same. -/
theorem readCsr_clearFault {n : Nat} (h : n ≠ 1) : readCsr s.clearFault n = readCsr s n := by
  have hregisters : registers s.clearFault = (registers s).set 1 0 := rfl
  rw [readCsr_eq_registerValue, readCsr_eq_registerValue, registerValue_eq, registerValue_eq, hregisters,
    List.getElem?_set_ne h.symm]

variable {s}

/-- The five actions other than HostCmd do the same whatever STATUS holds, but for the answer to a read of STATUS. -/
theorem perform_clearFault {t : State} {a : HostAction} (hcmd : ∀ cw, a ≠ .command cw) (h : perform a s = .next t) :
    ∃ r, perform a s.clearFault = .next { t.clearFault with reply := r } ∧ (a ≠ .readCsr 1 → t.reply = r) := by
  cases a with
  | command cw => exact absurd rfl (hcmd cw)
  | reset =>
    injection h with h
    exact h ▸ ⟨_, rfl, fun _ => rfl⟩
  | writeCsr n v =>
    injection h with h
    exact h ▸ ⟨_, congrArg _ (writeCsr_clearFault s n v), fun _ => rfl⟩
  | writeMem sp k v =>
    injection h with h
    exact h ▸ ⟨_, congrArg _ (hostWriteMem_clearFault s sp k v), fun _ => rfl⟩
  | readMem sp k =>
    injection h with h
    exact h ▸ ⟨_, rfl, fun _ => rfl⟩
  | readCsr n =>
    injection h with h
    subst h
    refine ⟨_, rfl, fun hn => ?_⟩
    rw [readCsr_clearFault s fun h1 => hn (h1 ▸ rfl)]

end ClearFault

/-- Settles O8: HostCmd is dropped, and each other action takes the state with FAULT cleared to the state it leaves with
FAULT cleared. -/
theorem faultedBlockDropsCommands : Obligations.FaultedBlockDropsCommands := by
  intro s a rest hp hstatus
  refine ⟨?_, fun hcmd => ?_⟩
  · rintro cw rfl
    exact (step_cons hp).trans (hostCmd_of_faulted (s := s.advance rest) hstatus)
  · obtain ⟨t, ht, hcfg, hpending, -⟩ := perform_completes (s.advance rest) a
    obtain ⟨r, hu, hreply⟩ := perform_clearFault hcmd ht
    refine ⟨t, { t.clearFault with reply := r }, (step_cons hp).trans ht,
      (step_cons (s := s.clearFault) hp).trans hu, rfl, rfl, hcfg, hpending, fun hreset => ?_, hreply⟩
    obtain ⟨hkeeps, -⟩ := perform_sameFaultRecord hreset hcmd ht
    exact hkeeps.trans hstatus

/-! ### The checks of a command in their order (R205) -/

/-- The spaces whose VALID bits a command checks. -/
def requiredSpaces : Instr → List Space
  | .csc => [.pix]
  | .sub pl => [planeSpace pl]
  | .blkx pl => [planeSpace pl]
  | .dct => [.blk]
  | .qtbl _ => []
  | .qnt _ false => [.coef]
  | .qnt _ true => [.coef, .qt]
  | .zz => [.qc]
  | .rle => [.zz]
  | .block pl => [planeSpace pl]
  | .frame => [.pix]

/-- What a command does once the geometry and the VALID bits are right: QNT with the resident table still looks for a
zero entry. -/
def afterChecks (i : Instr) (s : State) : State := if dividesByResident i then quantizeResident s else effect s i

section Checks
variable {s : State} {i : Instr}

theorem missing_requiredSpaces (hwf : i.wf = true) : s.missing (requiredSpaces i) = missingBits i s := by
  have hmask : validBits (requiredSpaces i) = neededBits i := by
    revert hwf
    cases i with
    | sub pl | blkx pl | block pl => cases pl <;> decide
    | qnt kind res => cases res <;> exact fun _ => rfl
    | _ => exact fun _ => rfl
  rw [State.missing, hmask, missingBits]

theorem exec_eq_checks (hwf : i.wf = true) : exec i s = .next (if usesGeometry i
    then s.checkGeometry fun s => s.checkValid (requiredSpaces i) (afterChecks i)
    else s.checkValid (requiredSpaces i) (afterChecks i)) := by
  cases i with
  | sub pl => exact exec_sub s hwf
  | qtbl kind =>
    have hmissing : s.missing [] = 0 := BitVec.zero_and
    exact congrArg Host.Outcome.next (if_pos hmissing).symm
  | qnt kind res => cases res <;> rfl
  | _ => rfl

theorem exec_of_geometry_illegal (hwf : i.wf = true) (huses : usesGeometry i = true) (hgeom : ¬ geometryOk s) :
    exec i s = .next (faultState s 1 (geometryInfo s)) := by
  rw [exec_eq_checks hwf, if_pos huses, State.checkGeometry_illegal hgeom]

theorem exec_of_geometry_legal (hwf : i.wf = true) (hgeom : usesGeometry i = true → geometryOk s) :
    exec i s = .next (s.checkValid (requiredSpaces i) (afterChecks i)) := by
  rw [exec_eq_checks hwf]
  split
  · rename_i huses
    rw [State.checkGeometry_legal (hgeom huses)]
  · rfl

theorem exec_of_missing (hwf : i.wf = true) (hgeom : usesGeometry i = true → geometryOk s)
    (hmissing : missingBits i s ≠ 0) : exec i s = .next (faultState s 4 ((missingBits i s).setWidth 32)) := by
  rw [← missing_requiredSpaces hwf] at hmissing ⊢
  rw [exec_of_geometry_legal hwf hgeom, State.checkValid, if_neg hmissing]
  rfl

theorem exec_of_ready (hwf : i.wf = true) (hgeom : usesGeometry i = true → geometryOk s)
    (hmissing : missingBits i s = 0) : exec i s = .next (afterChecks i s) := by
  rw [← missing_requiredSpaces hwf] at hmissing
  rw [exec_of_geometry_legal hwf hgeom, State.checkValid, if_pos hmissing]

theorem eq_qnt_of_dividesByResident (h : dividesByResident i = true) : ∃ kind, i = .qnt kind true := by
  unfold dividesByResident at h
  split at h
  · exact ⟨_, rfl⟩
  · exact absurd h Bool.false_ne_true

theorem afterChecks_of_nonzero (h : dividesByResident i = true → ∀ k < 64, s.read .qt k ≠ 0) :
    afterChecks i s = effect s i := by
  unfold afterChecks
  split
  · rename_i hdiv
    obtain ⟨kind, rfl⟩ := eq_qnt_of_dividesByResident hdiv
    exact quantizeResident_of_nonzero (h hdiv)
  · rfl

theorem exists_lowest_zero (h : ¬ ∀ k < 64, s.read .qt k ≠ 0) :
    ∃ k < 64, s.read .qt k = 0 ∧ ∀ j < k, s.read .qt j ≠ 0 := by
  push Not at h
  have hlt : Nat.find h < 64 := (Nat.find_spec h).1
  exact ⟨Nat.find h, hlt, (Nat.find_spec h).2, fun j hj hzero => Nat.find_min h hj ⟨hj.trans hlt, hzero⟩⟩

/-- A legal command reports the fault that R205 puts first. -/
theorem exec_of_faultsWith (hwf : i.wf = true) {code info : Word} (h : faultsWith i s code info) :
    exec i s = .next (faultState s code info) := by
  obtain ⟨rfl, huses, hgeom, rfl⟩ | ⟨rfl, hgeom, hmissing, rfl⟩ | ⟨rfl, hdiv, hmissing, k, hk, hzero, hlow, rfl⟩ := h
  · exact exec_of_geometry_illegal hwf huses hgeom
  · exact exec_of_missing hwf hgeom hmissing
  · obtain ⟨kind, rfl⟩ := eq_qnt_of_dividesByResident hdiv
    rw [exec_of_ready hwf nofun hmissing, afterChecks, if_pos hdiv, quantizeResident_of_zero hk hzero hlow]

/-- Where no fault of R205 applies a legal command has its full effect. -/
theorem exec_of_no_fault (hwf : i.wf = true) (h : ∀ code info, ¬ faultsWith i s code info) :
    exec i s = .next (effect s i) := by
  have hgeom (huses : usesGeometry i = true) : geometryOk s := by
    by_contra hgeom
    exact h _ _ (.inl ⟨rfl, huses, hgeom, rfl⟩)
  have hmissing : missingBits i s = 0 := by
    by_contra hmissing
    exact h _ _ (.inr (.inl ⟨rfl, hgeom, hmissing, rfl⟩))
  have hnonzero (hdiv : dividesByResident i = true) : ∀ k < 64, s.read .qt k ≠ 0 := by
    by_contra hzero
    obtain ⟨k, hk, hzero, hlow⟩ := exists_lowest_zero hzero
    exact h _ _ (.inr (.inr ⟨rfl, hdiv, hmissing, k, hk, hzero, hlow, rfl⟩))
  rw [exec_of_ready hwf hgeom hmissing, afterChecks_of_nonzero hnonzero]

end Checks

/-- Settles O10: the host's other actions write no fault record or clear it, and a command makes its checks in the order
of R205. -/
theorem commandReportsFirstFault : Obligations.CommandReportsFirstFault := by
  refine ⟨fun s a rest hp hcmd => ?_, fun s cw rest hp => ?_⟩
  · obtain ⟨t, ht, -, hpending, -⟩ := perform_completes (s.advance rest) a
    refine ⟨t, (step_cons hp).trans ht, hpending, fun hstatus => ?_⟩
    by_cases hreset : a = .reset
    · subst hreset
      injection ht with ht
      exact ht ▸ rfl
    · obtain ⟨hkeeps, -⟩ := perform_sameFaultRecord hreset hcmd ht
      exact hkeeps.trans hstatus
  · rw [step_cons hp]
    refine ⟨fun hstatus => hostCmd_of_faulted (s := s.advance rest) hstatus,
      fun hstatus hdecode => hostCmd_of_illegal (s := s.advance rest) hstatus hdecode, fun i hstatus hdecode => ?_⟩
    obtain ⟨hwf, -⟩ := decode_eq_ok_iff_encode.1 hdecode
    have hexec : perform (.command cw) (s.advance rest) = exec i (s.advance rest) :=
      hostCmd_of_legal (s := s.advance rest) hstatus hdecode
    rw [hexec]
    refine ⟨fun code info => exec_of_faultsWith hwf, fun hnone => ?_⟩
    have heffect := exec_of_no_fault hwf hnone
    obtain ⟨t, ht, -, hpending, -⟩ := exec_completes (s.advance rest) i
    obtain rfl : effect (s.advance rest) i = t := by simpa [heffect] using ht
    obtain ⟨hst, hfcode, hfinfo⟩ := effect_sameFaultRecord (s.advance rest) i
    exact ⟨_, ht, hpending, hst.trans hstatus, hfcode, hfinfo⟩

end Sys2Proof.Machine
end

section
/-! HostReset (70_reset_and_hazards.md R230): the registers of the reset table, and spaces with no element written. -/

namespace Sys2Proof.Machine

open Sys2Proof.Claims

/-- The reset table as the host reads it, reserved numbers included (R32, R59). -/
theorem registerValue_of_csr_reset {s : State} (hcsr : s.csr = Csrs.reset) (n : Nat) :
    registerValue s n = if n = 6 then 50 else 0 := by
  by_cases hn : n < 15
  · rw [registerValue_eq, registers, hcsr]
    interval_cases n <;> rfl
  · rw [registerValue_of_ge s (Nat.not_lt.1 hn), if_neg (by omega)]

/-- Settles O34: the step is `hostReset`, whatever the state, and the reset registers read as the table says. -/
theorem hostResetRestoresRegisters : Obligations.HostResetRestoresRegisters := by
  intro s rest hp
  exact ⟨hostReset (s.advance rest), step_cons hp, hostReset_csr _, registerValue_of_csr_reset (hostReset_csr _),
    Memory.get_unspecified, Memory.get_unspecified, hostReset_cfg _, hostReset_pending _⟩

end Sys2Proof.Machine
end

section
/-! HostCmd and the words it takes (30_encoding.md R80 to R85): decode and encode agree, and a step runs the command that
its word decodes to. -/

namespace Sys2Proof.Machine

/-- Settles O2: the fields of a word are those of the encoding of its command, and the six fields cover the word. -/
theorem decodeIsInverseOfEncode : Obligations.DecodeIsInverseOfEncode := fun _ _ => decode_eq_ok_iff_encode

/-- Settles O1: each of the seven commands is well formed and encoded by its word. -/
theorem sampleWordsDecode : Obligations.SampleWordsDecode := by
  simp only [Obligations.SampleWordsDecode, decode_eq_ok_iff_encode]
  decide

/-- Settles O4: the step performs HostCmd once the action is off the queue, and taking it off leaves STATUS at 0. -/
theorem stepRunsDecodedCommand : Obligations.StepRunsDecodedCommand := by
  intro s cw rest i hp hstatus hdecode
  have hstep : step s = exec i (s.advance rest) :=
    (step_cons hp).trans (hostCmd_of_legal (s := s.advance rest) hstatus hdecode)
  exact ⟨hstep, s.advance_csr rest, s.advance_mem rest, s.advance_cfg rest, s.advance_pending rest,
    s.advance_reply rest, s.advance_draws rest⟩

end Sys2Proof.Machine
end
